-- ==== Sys2Proof/Word.lean ====
section
/-! DEFINITION. The word types of the CHIP-8 core: bytes, instruction words, 12-bit addresses and register
indices (spec 00_scope.md R11, R12; 30_encoding.md R78). -/

namespace Sys2Proof

/-- An 8-bit value: a general register, a timer, a byte of memory, the immediate `nn` (R21, R22, R30, R78). -/
abbrev Byte := BitVec 8

/-- A 16-bit value: an instruction word, `pc`, `I`, a stack entry (R25, R26, R29, R75). -/
abbrev Word := BitVec 16

/-- The 12-bit immediate `nnn`, 0x000 to 0xFFF (R78). -/
abbrev Addr12 := BitVec 12

/-- The index of a general register, 0 to 15: it is only ever used to select (R22, R78). -/
abbrev RegIx := Fin 16

/-- The number of rows of a sprite, 0 to 15, the field `n` (R78, R139). -/
abbrev Rows := Fin 16

/-- A display column, 0 to 63 (R32). -/
abbrev Col := Fin 64

/-- A display row, 0 to 31 (R32). -/
abbrev Row := Fin 32

end Sys2Proof
end

