-- ==== Sys2Proof/Asm.lean ====
section
/-! DEFINITION. The assembler items of spec 30_encoding.md R86, as abstract terms whose operands are plain numbers:
their ranges are the checks of WellFormed.lean, and what each stands for is in Decode.lean. The spelling itself carries
no meaning (R86: "it carries no meaning beyond the pattern it stands for"). -/

namespace Sys2Proof

/-- One line of assembly (R86): the six instructions and the two data directives `DW` and `DB` (R87). -/
inductive AsmItem where
  | cls
  | jp (nnn : Nat)
  | ldImm (x nn : Nat)
  | addImm (x nn : Nat)
  | ldI (nnn : Nat)
  | drw (x y n : Nat)
  /-- `DW hhhh`: a literal word, high byte first. -/
  | dw (hhhh : Nat)
  /-- `DB hh`: a literal byte. -/
  | db (hh : Nat)
deriving DecidableEq, Repr

/-- One line of a listing (R86): an item, a label, or an instruction whose address operand is a label, which "stands for
the address of the next word". -/
inductive AsmLine where
  | item (a : AsmItem)
  | label (name : String)
  | jpLabel (name : String)
  | ldILabel (name : String)
deriving DecidableEq, Repr

end Sys2Proof
end

