-- ==== Sys2Proof/Syntax.lean ====
section
/-! DEFINITION. The instructions of the core: one constructor per row of spec/opcode_table.json (30_encoding.md R80).
Every operand has exactly the width of its field (R78), so every term is an instruction the encoding admits. -/

namespace Sys2Proof

/-- The six instructions (30_encoding.md R80); every other word is unrecognized and is no instruction (R83). -/
inductive Instr where
  /-- `00E0`, `CLS`: clear the display (R130). -/
  | cls
  /-- `1nnn`, `JP nnn`: jump (R115). -/
  | jp (nnn : Addr12)
  /-- `6xnn`, `LD Vx, nn`: set immediate (R120). -/
  | ldImm (x : RegIx) (nn : Byte)
  /-- `7xnn`, `ADD Vx, nn`: add immediate (R123). -/
  | addImm (x : RegIx) (nn : Byte)
  /-- `Annn`, `LD I, nnn`: load index (R126). -/
  | ldI (nnn : Addr12)
  /-- `Dxyn`, `DRW Vx, Vy, n`: draw sprite (R134). -/
  | drw (x y : RegIx) (n : Rows)
deriving DecidableEq, Repr

end Sys2Proof
end

