-- ==== Sys2Proof/WellFormed.lean ====
section
/-! DEFINITION. The operand ranges of spec 30_encoding.md R78 and R86, as checks that evaluate. An `Instr` meets its
checks by its types (Laws/PerInstr.lean proves it for every constructor); an `AsmItem` need not. -/

namespace Sys2Proof

/-- Every operand of the instruction lies in the range of its field (R78). -/
def Instr.wellFormed : Instr → Bool
  | .cls => true
  | .jp nnn => decide (nnn.toNat ≤ 0xFFF)
  | .ldImm x nn => decide (x.val ≤ 15) && decide (nn.toNat ≤ 255)
  | .addImm x nn => decide (x.val ≤ 15) && decide (nn.toNat ≤ 255)
  | .ldI nnn => decide (nnn.toNat ≤ 0xFFF)
  | .drw x y n => decide (x.val ≤ 15) && decide (y.val ≤ 15) && decide (n.val ≤ 15)

/-- Every operand of the assembler item lies in the range R86 gives it. -/
def AsmItem.wellFormed : AsmItem → Bool
  | .cls => true
  | .jp nnn => decide (nnn ≤ 0xFFF)
  | .ldImm x nn => decide (x ≤ 0xF) && decide (nn ≤ 0xFF)
  | .addImm x nn => decide (x ≤ 0xF) && decide (nn ≤ 0xFF)
  | .ldI nnn => decide (nnn ≤ 0xFFF)
  | .drw x y n => decide (x ≤ 0xF) && decide (y ≤ 0xF) && decide (n ≤ 15)
  | .dw hhhh => decide (hhhh ≤ 0xFFFF)
  | .db hh => decide (hh ≤ 0xFF)

end Sys2Proof
end

