-- ==== Sys2Proof/Decode.lean ====
section
/-! DEFINITION. Decoding and encoding (spec 30_encoding.md R75 to R87, 40_step_cycle.md R103, R104). The decoder is
total on words and on bytes; what it rejects it rejects by name. -/

namespace Sys2Proof

/-- The canonical fields, extracted from every word whatever it encodes (R77, R103). -/
structure Fields where
  op : BitVec 4
  x : RegIx
  y : RegIx
  n : Rows
  nn : Byte
  nnn : Addr12
deriving DecidableEq, Repr

/-- R103: `op = w[15:12]`, `x = w[11:8]`, `y = w[7:4]`, `n = w[3:0]`, `nn = w[7:0]`, `nnn = w[11:0]`. -/
def extractFields (w : Word) : Fields where
  op := w.extractLsb' 12 4
  x := (w.extractLsb' 8 4).toFin
  y := (w.extractLsb' 4 4).toFin
  n := (w.extractLsb' 0 4).toFin
  nn := w.extractLsb' 0 8
  nnn := w.extractLsb' 0 12

/-- A row of the opcode map: the columns `mask` and `match` of R80. -/
structure OpcodeRow where
  mask : Word
  pattern : Word
deriving DecidableEq, Repr

/-- R80: `w & mask == match`. -/
def OpcodeRow.hits (r : OpcodeRow) (w : Word) : Bool := w &&& r.mask == r.pattern

/-- `00E0`, matched on all 16 bits (R80, R82). -/
def rowCls : OpcodeRow := ⟨0xFFFF, 0x00E0⟩
/-- `1nnn` (R80). -/
def rowJp : OpcodeRow := ⟨0xF000, 0x1000⟩
/-- `6xnn` (R80). -/
def rowLdImm : OpcodeRow := ⟨0xF000, 0x6000⟩
/-- `7xnn` (R80). -/
def rowAddImm : OpcodeRow := ⟨0xF000, 0x7000⟩
/-- `Annn` (R80). -/
def rowLdI : OpcodeRow := ⟨0xF000, 0xA000⟩
/-- `Dxyn` (R80). -/
def rowDrw : OpcodeRow := ⟨0xF000, 0xD000⟩

/-- The complete opcode map (R80). -/
def opcodeMap : List OpcodeRow := [rowCls, rowJp, rowLdImm, rowAddImm, rowLdI, rowDrw]

/-- The row of the opcode map an instruction belongs to. -/
def Instr.row : Instr → OpcodeRow
  | .cls => rowCls
  | .jp _ => rowJp
  | .ldImm _ _ => rowLdImm
  | .addImm _ _ => rowAddImm
  | .ldI _ => rowLdI
  | .drw _ _ _ => rowDrw

/-- Why bytes are no instruction. -/
inductive DecodeError where
  /-- The word matches no row of the opcode map: `unrecognized(w)` (R83, R85). -/
  | unrecognized (w : Word)
  /-- Fewer than two bytes: no word is there to decode (R75). The step never meets this, since its fetch reads two. -/
  | truncated
deriving DecidableEq, Repr

/-- The decode function: total, on the word alone (R85), the rows of R80 in the order of R105. -/
def decode (w : Word) : Except DecodeError Instr :=
  let f := extractFields w
  if rowCls.hits w then .ok .cls
  else if rowJp.hits w then .ok (.jp f.nnn)
  else if rowLdImm.hits w then .ok (.ldImm f.x f.nn)
  else if rowAddImm.hits w then .ok (.addImm f.x f.nn)
  else if rowLdI.hits w then .ok (.ldI f.nnn)
  else if rowDrw.hits w then .ok (.drw f.x f.y f.n)
  else .error (.unrecognized w)

/-- The word two bytes make, the high byte first (20_memory.md R54). -/
def wordOfBytes (hi lo : Byte) : Word := hi ++ lo

/-- The bytes of a word in the order memory holds them, the high byte at the lower address (R54, R75). -/
def wordBytes (w : Word) : List Byte := [w.extractLsb' 8 8, w.extractLsb' 0 8]

/-- The instruction at the head of a byte sequence and what follows it; every instruction is two bytes (R75). -/
def decodeBytes : List Byte → Except DecodeError (Instr × List Byte)
  | hi :: lo :: rest =>
    match decode (wordOfBytes hi lo) with
    | .ok i => .ok (i, rest)
    | .error e => .error e
  | _ => .error .truncated

/-- Format `NNN` of R76: `op`, then the twelve bits of `nnn`. -/
def formatNNN (op : BitVec 4) (nnn : Addr12) : Word := op ++ nnn

/-- Format `XNN` of R76: `op`, `x`, `nn`. -/
def formatXNN (op : BitVec 4) (x : RegIx) (nn : Byte) : Word := op ++ ((BitVec.ofFin x : BitVec 4) ++ nn)

/-- Format `XYN` of R76: `op`, `x`, `y`, `n`. -/
def formatXYN (op : BitVec 4) (x y : RegIx) (n : Rows) : Word :=
  op ++ ((BitVec.ofFin x : BitVec 4) ++ ((BitVec.ofFin y : BitVec 4) ++ (BitVec.ofFin n : BitVec 4)))

/-- The word of an instruction, by the formats of R76 and the patterns of R80. -/
def encode : Instr → Word
  | .cls => 0x00E0
  | .jp nnn => formatNNN 0x1 nnn
  | .ldImm x nn => formatXNN 0x6 x nn
  | .addImm x nn => formatXNN 0x7 x nn
  | .ldI nnn => formatNNN 0xA nnn
  | .drw x y n => formatXYN 0xD x y n

/-- The bytes of an instruction as memory holds them (R75). -/
def encodeBytes (i : Instr) : List Byte := wordBytes (encode i)

/-- The word whose bits are `w` where the opcode table gives the row `nbits` bits; the bits above `nbits` are 0. -/
def tableWord (nbits w : Nat) : Word := BitVec.ofNat 16 (w % 2 ^ nbits)

/-- The instruction the decoder reads from a word numbered as spec/opcode_table.json numbers it: the word is laid out
as memory holds it and given to `decodeBytes`. -/
def decodeTableWord (nbits w : Nat) : Option Instr :=
  match decodeBytes (wordBytes (tableWord nbits w)) with
  | .ok (i, _) => some i
  | .error _ => none

/-- The instruction an assembler item stands for (R86); none for a data directive and, DESIGN CHOICE (log entry 8), for an
operand out of range. -/
def AsmItem.toInstr (a : AsmItem) : Option Instr :=
  if a.wellFormed then
    match a with
    | .cls => some .cls
    | .jp nnn => some (.jp (BitVec.ofNat 12 nnn))
    | .ldImm x nn => some (.ldImm (Fin.ofNat 16 x) (BitVec.ofNat 8 nn))
    | .addImm x nn => some (.addImm (Fin.ofNat 16 x) (BitVec.ofNat 8 nn))
    | .ldI nnn => some (.ldI (BitVec.ofNat 12 nnn))
    | .drw x y n => some (.drw (Fin.ofNat 16 x) (Fin.ofNat 16 y) (Fin.ofNat 16 n))
    | .dw _ => none
    | .db _ => none
  else none

/-- The bytes an assembler item places (R86, R87); none for an operand out of range (log entry 8). -/
def AsmItem.bytes (a : AsmItem) : Option (List Byte) :=
  match a with
  | .dw hhhh => if a.wellFormed then some (wordBytes (BitVec.ofNat 16 hhhh)) else none
  | .db hh => if a.wellFormed then some [BitVec.ofNat 8 hh] else none
  | _ => a.toInstr.map encodeBytes

/-- The ROM a listing assembles to, item after item; none when an operand is out of range (R86, log entry 8). -/
def assemble : List AsmItem → Option (List Byte)
  | [] => some []
  | a :: rest =>
    match a.bytes, assemble rest with
    | some bs, some tail => some (bs ++ tail)
    | _, _ => none

/-- How many bytes a line of a listing places: a word or a byte, none for a label. -/
def AsmLine.size : AsmLine → Nat
  | .item (.db _) => 1
  | .item _ => 2
  | .label _ => 0
  | .jpLabel _ => 2
  | .ldILabel _ => 2

/-- The address of a label in a listing whose first line lies at `a` (R86). DESIGN CHOICE (log entry 8), where R86 is
silent: a label defined twice stands for the address of its FIRST definition and the listing is not rejected; a label the
listing does not hold has no address. -/
def labelAddr (name : String) : Nat → List AsmLine → Option Nat
  | _, [] => none
  | a, l :: rest => if l = .label name then some a else labelAddr name (a + l.size) rest

/-- A line with its label operand replaced by the address it stands for; a label itself places nothing. DESIGN CHOICE
(log entry 8): a label before a `DB` stands for that byte's address. -/
def AsmLine.resolve (listing : List AsmLine) : AsmLine → Option (List AsmItem)
  | .item a => some [a]
  | .label _ => some []
  | .jpLabel name => (labelAddr name 0x200 listing).map fun a => [.jp a]
  | .ldILabel name => (labelAddr name 0x200 listing).map fun a => [.ldI a]

/-- The ROM a listing with labels assembles to; "the first word of a program is at 0x200" (R86). DESIGN CHOICE (log
entry 8), where R86 is silent: a listing with a label operand that it does not define assembles to none, and the length
of the ROM is no concern of the assembly (`State.load` checks it). -/
def assembleLines (listing : List AsmLine) : Option (List Byte) :=
  ((listing.mapM (AsmLine.resolve listing)).map List.flatten).bind assemble

end Sys2Proof
end

