-- ==== Sys2Proof/Config.lean ====
section
/-! DEFINITION. The implementation parameters of spec 00_scope.md R6. All are compile-time constants; the one the
source does not print, `FONT[1..15]`, is a value of type `FontParam`: the operations that use it take it as an argument
(`State.initializeFont`), and its default, the rows 1 to F of R58, stands in Machine/Font.lean (log entry 1). `FONT[0]` is
a constant (`glyph0` there), never an argument. -/

namespace Sys2Proof.Config

/-- `MEM_SIZE`: bytes of memory. -/
@[simp] abbrev memSize : Nat := 4096

/-- The last address of memory, 0xFFF: `MEM_SIZE - 1`. -/
@[simp] abbrev memLast : Nat := 0xFFF

/-- `FONT_BASE`: first byte of the font region. -/
@[simp] abbrev fontBase : Nat := 0x050

/-- `FONT_END`: last byte of the font region, inclusive. -/
@[simp] abbrev fontEnd : Nat := 0x09F

/-- Bytes of the font region: `FONT_GLYPHS * GLYPH_BYTES`. -/
@[simp] abbrev fontBytes : Nat := 80

/-- `PROG_BASE`: the load address and the `pc` after reset. -/
@[simp] abbrev progBase : Nat := 0x200

/-- `PROG_MAX`: the largest program in bytes. -/
@[simp] abbrev progMax : Nat := 3584

/-- `FLAG_REG`: the index of the flag register VF. -/
@[simp] abbrev flagReg : RegIx := 15

/-- `STACK_DEPTH`: call-stack entries; the stack pointer ranges over 0 to this. -/
@[simp] abbrev stackDepth : Nat := 16

/-- `DISP_W`: display columns. -/
@[simp] abbrev dispW : Nat := 64

/-- `DISP_H`: display rows. -/
@[simp] abbrev dispH : Nat := 32

/-- `INSN_BYTES`: bytes per instruction. -/
@[simp] abbrev insnBytes : Nat := 2

/-- A glyph: `GLYPH_BYTES` bytes. -/
abbrev Glyph := Vector Byte 5

/-- The whole font table `FONT`: `FONT_GLYPHS` glyphs (R56). -/
abbrev FontTable := Vector Glyph 16

/-- The parameter `FONT[1..15]`, the only one the source leaves open (R7): entry `d` is glyph `d + 1`. -/
abbrev FontParam := Vector Glyph 15

end Sys2Proof.Config
end

