-- ==== Sys2Proof/Machine/Font.lean ====
section
/-! DEFINITION. The font: the layout of the font region (spec 20_memory.md R56), the constant `FONT[0]` and the default
value of the parameter `FONT[1..15]` (R58). Glyph 0 is the source's; glyphs 1 to F are the spec's default, which it marks
general knowledge and not in the source (PRESUMED, log entry 1; unsafe: no claim may rest on their bytes without naming
the default). -/

namespace Sys2Proof.Machine

open Sys2Proof.Config

/-- `FONT[0]`: glyph 0, a constant from the source (R6, R58, R59). -/
def glyph0 : Glyph := #v[0xF0, 0x90, 0x90, 0x90, 0xF0]

/-- `FONT`, all sixteen glyphs: the constant `FONT[0]`, then the parameter `FONT[1..15]` (R6). -/
def fontTable (font : FontParam) : FontTable := ⟨(glyph0 :: font.toList).toArray, by simp⟩

/-- The default value of `FONT[1..15]` (R58). -/
def fontDefault : FontParam := #v[
  #v[0x20, 0x60, 0x20, 0x20, 0x70],
  #v[0xF0, 0x10, 0xF0, 0x80, 0xF0],
  #v[0xF0, 0x10, 0xF0, 0x10, 0xF0],
  #v[0x90, 0x90, 0xF0, 0x10, 0x10],
  #v[0xF0, 0x80, 0xF0, 0x10, 0xF0],
  #v[0xF0, 0x80, 0xF0, 0x90, 0xF0],
  #v[0xF0, 0x10, 0x20, 0x40, 0x40],
  #v[0xF0, 0x90, 0xF0, 0x90, 0xF0],
  #v[0xF0, 0x90, 0xF0, 0x10, 0xF0],
  #v[0xF0, 0x90, 0xF0, 0x90, 0x90],
  #v[0xE0, 0x90, 0xE0, 0x90, 0xE0],
  #v[0xF0, 0x80, 0x80, 0x80, 0xF0],
  #v[0xE0, 0x90, 0x90, 0x90, 0xE0],
  #v[0xF0, 0x80, 0xF0, 0x80, 0xF0],
  #v[0xF0, 0x80, 0xF0, 0x80, 0x80]]

/-- The byte a font table puts at an address: byte `k` of glyph `d` at `0x050 + 5*d + k` (R56), 0x00 elsewhere. -/
def fontByte (font : FontTable) (a : Nat) : Byte :=
  if h : fontBase ≤ a ∧ a ≤ fontEnd then
    (font[(a - 0x050) / 5]'(by simp at h; omega))[(a - 0x050) % 5]'(Nat.mod_lt _ (by decide))
  else 0x00

/-- The bytes of a font table in the order of R57's loops: glyph after glyph. -/
def fontTableBytes (font : FontTable) : List Byte := (font.toList.map Vector.toList).flatten

end Sys2Proof.Machine
end

