-- ==== Sys2Proof/Machine/State.lean ====
section
/-! DEFINITION. The machine state of spec 10_state.md R20, the fault kinds of 60_exceptions.md R150, the outcomes' reason
types, and the state after reset (R38). -/

namespace Sys2Proof.Machine

/-- The fault kinds, in the order of the table of R150. -/
inductive FaultKind where
  | romUnreadable
  | romTooLarge
  | unrecognizedInstruction
  | stackOverflow
  | stackUnderflow
  | outOfBounds
deriving DecidableEq, Repr

/-- The faults a step can latch, each with the information R150 records for it. The two load-time kinds are results of
`load` and never stand here (R154). -/
inductive CoreFault where
  /-- The word `w`, fetched from `a`, matches no row of the opcode map (R151). -/
  | unrecognizedInstruction (a w : Word)
  /-- Defined, raised by no instruction in scope (R153). -/
  | stackOverflow
  /-- Defined, raised by no instruction in scope (R153). -/
  | stackUnderflow
  /-- `b` is the lowest offending address (R152). -/
  | outOfBounds (b : Nat)
deriving DecidableEq, Repr

/-- The halt and fault latch `HALT` (R33). -/
inductive Halt where
  | running
  | halted (fault : CoreFault)
deriving DecidableEq, Repr

/-- Memory: (address, byte) pairs in one canonical form (`Memory.wf` of Machine/Ops.lean). An unlisted address reads as
`Memory.background`, the reset contents of R38. -/
abbrev Memory := List Host.Cell

/-- The display buffer: 32 rows of 64 cells, row-major (R32). -/
abbrev Display := Vector (Vector Bool 64) 32

/-- The machine state: exactly the fields of R20, under the spec's names. -/
structure State where
  /-- `MEM`, 4096 bytes (R21). -/
  MEM : Memory
  /-- `V[0..15]`, VF among them (R22, R24). -/
  V : Vector Byte 16
  /-- The index register (R25). -/
  I : Word
  /-- The program counter (R26). -/
  pc : Word
  /-- The call stack's entries (R29). -/
  STACK : Vector Word 16
  /-- The stack pointer, 0 to 16, five bits (R29, R34). -/
  SP : BitVec 5
  /-- The delay timer (R30). -/
  DT : Byte
  /-- The sound timer (R30). -/
  ST : Byte
  /-- The key input latch: flag `k` is key `k` (R31, R176). -/
  KEY : Vector Bool 16
  /-- The display buffer (R32). -/
  DISP : Display
  /-- The halt and fault latch (R33). -/
  HALT : Halt
deriving DecidableEq, Repr

/-- Why a step can stop. A fault of the CORE is no such stop: it is a next state with `HALT` latched (R106, R156). -/
inductive Fault where
  /-- Raised by `step` alone, in a state whose `HALT` is `halted`: there `step` has no transition (R100, R157). Safe:
  the machine stops where the hardware too executes nothing further. -/
  | coreHalted (fault : CoreFault)
deriving DecidableEq, Repr

/-- Why an instruction can be refused. -/
inductive Refusal where
  /-- Raised by an arm of `exec` for an instruction that has no meaning yet; no arm of this model does. Safe. -/
  | notModelled (mnemonic : String)
deriving DecidableEq, Repr

/-- Every display cell clear (R38). -/
def Display.clear : Display := Vector.replicate 32 (Vector.replicate 64 false)

/-- The machine after reset, as the table of R38 gives it: after the `reset` event and `initializeFont`, before `load`.
Memory lists nothing, since an unlisted address reads as the reset contents. (The state between the `reset` event and
`initializeFont` is `State.zeroed` of Machine/Boot.lean.) -/
def State.reset : State where
  MEM := []
  V := Vector.replicate 16 0
  I := 0x0000
  pc := 0x0200
  STACK := Vector.replicate 16 0
  SP := 0
  DT := 0x00
  ST := 0x00
  KEY := Vector.replicate 16 false
  DISP := Display.clear
  HALT := .running

end Sys2Proof.Machine
end

