-- ==== Sys2Proof/Machine/Ops.lean ====
section
/-! DEFINITION. The named operations over memory and registers, the fetch, and raising a fault (spec 20_memory.md R54,
R62; 40_step_cycle.md R101, R102, R106; 60_exceptions.md R156). -/

namespace Sys2Proof.Machine

open Sys2Proof.Config

/-! ### Memory -/

/-- What an address reads as while nothing lists it: the reset contents of R38, the font and 0x00 elsewhere. -/
def Memory.background (a : Nat) : Byte := fontByte (fontTable fontDefault) a

/-- `MEM[a]`, with no check of the range (R12). -/
def Memory.read : Memory → Nat → Byte
  | [], a => Memory.background a
  | (k, c) :: rest, a => if k = a then c else Memory.read rest a

/-- `MEM[a] <- b`, keeping the canonical form: writing the background value removes the entry. -/
def Memory.write : Memory → Nat → Byte → Memory
  | [], a, b => if b = Memory.background a then [] else [(a, b)]
  | (k, c) :: rest, a, b =>
    if a < k then (if b = Memory.background a then (k, c) :: rest else (a, b) :: (k, c) :: rest)
    else if a = k then (if b = Memory.background a then rest else (a, b) :: rest)
    else (k, c) :: Memory.write rest a b

/-- Bytes written to rising addresses from `a` on, in order. -/
def Memory.writeBytes : Memory → Nat → List Byte → Memory
  | m, _, [] => m
  | m, a, b :: bs => Memory.writeBytes (m.write a b) (a + 1) bs

/-- The canonical form from address `lo` on: addresses rise strictly, exist (R21), and no entry equals the background. -/
def Memory.wfFrom (lo : Nat) : Memory → Bool
  | [] => true
  | (a, b) :: rest =>
    decide (lo ≤ a) && decide (a < memSize) && decide (b ≠ Memory.background a) && Memory.wfFrom (a + 1) rest

/-- The canonical form of memory. -/
def Memory.wf (m : Memory) : Bool := Memory.wfFrom 0 m

/-- `MemRead(a, 1)` (R62): the byte, or the address that `OutOfBounds` records. -/
def State.memRead1 (s : State) (a : Nat) : Except Nat Byte :=
  if a > memLast then .error a else .ok (s.MEM.read a)

/-- `MemRead(a, 2)` (R62): the big-endian word, or the smallest of `a`, `a + 1` above 0xFFF. Nothing wraps. -/
def State.memRead2 (s : State) (a : Nat) : Except Nat Word :=
  if a + 1 > memLast then .error (if a > memLast then a else a + 1)
  else .ok (wordOfBytes (s.MEM.read a) (s.MEM.read (a + 1)))

/-- Phase 1, fetch (R101): the word at `pc`, at any `pc`, even or odd (R55). -/
def State.fetch (s : State) : Except Nat Word := s.memRead2 s.pc.toNat

/-! ### Registers -/

/-- `V[i]` (R12, R22). -/
def State.getV (s : State) (x : RegIx) : Byte := s.V[x.val]

/-- `V[i] <- v`: all sixteen registers, VF included, hold what was last written (R22). -/
def State.setV (s : State) (x : RegIx) (v : Byte) : State := { s with V := s.V.set x.val v }

/-- `I <- v`. -/
def State.setI (s : State) (v : Word) : State := { s with I := v }

/-- `pc <- t`. -/
def State.setPc (s : State) (t : Word) : State := { s with pc := t }

/-- Phase 2, advance (R102): `pc <- pc + 2`, before the operation's effects. -/
def State.advancePc (s : State) : State := s.setPc (s.pc + 2)

/-- The whole display buffer replaced. -/
def State.setDisp (s : State) (d : Display) : State := { s with DISP := d }

/-- The whole memory replaced: used by boot alone (R66). -/
def State.setMem (s : State) (m : Memory) : State := { s with MEM := m }

/-- `HALT <- h`. -/
def State.setHalt (s : State) (h : Halt) : State := { s with HALT := h }

/-- The two timers written together, as `tick` does (R170). -/
def State.setTimers (s : State) (dt st : Byte) : State := { s with DT := dt, ST := st }

/-- `KEY <- k` (R176). -/
def State.setKey (s : State) (k : Vector Bool 16) : State := { s with KEY := k }

/-! ### The display -/

/-- `DISP[col, row]` (R12). -/
def Display.get (d : Display) (col : Col) (row : Row) : Bool := (d[row.val])[col.val]

/-- `DISP[col, row] <- b`. -/
def Display.put (d : Display) (col : Col) (row : Row) (b : Bool) : Display :=
  Vector.set d row.val ((d[row.val]).set col.val b)

/-! ### Faults -/

/-- The kind of a latched fault (R150). -/
def CoreFault.kind : CoreFault → FaultKind
  | .unrecognizedInstruction _ _ => .unrecognizedInstruction
  | .stackOverflow => .stackOverflow
  | .stackUnderflow => .stackUnderflow
  | .outOfBounds _ => .outOfBounds

/-- The numeric code of a fault kind (R150). -/
def FaultKind.code : FaultKind → Nat
  | .romUnreadable => 1
  | .romTooLarge => 2
  | .unrecognizedInstruction => 3
  | .stackOverflow => 4
  | .stackUnderflow => 5
  | .outOfBounds => 6

/-- `raise K(info)`, the only trap mechanism (R156): `HALT <- halted(K, info)` in the state BEFORE the step, every other
field as it was, `pc` included (R106). There is no vector, no saved register and no return: only the `reset` event leaves
a halt (R158; `State.resetEvent`). -/
def State.raise (f : CoreFault) (s : State) : State := s.setHalt (.halted f)

/-! ### Placing a word where the next step fetches -/

/-- The address the word goes to: `pc`, or `PROG_BASE` when no fetch at `pc` succeeds (R101). -/
def State.fetchAddr (s : State) : Nat := if s.pc.toNat + 1 > memLast then progBase else s.pc.toNat

/-- The state with a word in memory at the next fetch and the core running, so that the next step fetches that word. It
stands for the load of a program from outside the machine (log entry 2). -/
def State.placeWord (s : State) (w : Word) : State :=
  { s with MEM := s.MEM.writeBytes s.fetchAddr (wordBytes w), pc := BitVec.ofNat 16 s.fetchAddr, HALT := .running }

end Sys2Proof.Machine
end

