-- ==== Sys2Proof/Machine/Operands.lean ====
section
/-! DEFINITION. The operand forms of spec 30_encoding.md R78 and the arithmetic of 42_register_immediate.md R127:
registers, immediates, display coordinates, and the sprite's effective addresses (43_display.md R136, R138, R142). -/

namespace Sys2Proof.Machine

open Sys2Proof.Config

/-- `zext_16(nnn)`: immediates are used without sign extension, scaling or shifting (R78). -/
def zext16 (nnn : Addr12) : Word := nnn.setWidth 16

/-- `(a + b) mod 256`: the sum in the natural numbers, then reduced (R123, R127). -/
def addMod256 (a b : Byte) : Byte := BitVec.ofNat 8 ((a.toNat + b.toNat) % 256)

/-- `startX = V[x] mod 64` (R134, R136). -/
def State.startX (s : State) (x : RegIx) : Col := Fin.ofNat 64 (s.getV x).toNat

/-- `startY = V[y] mod 32` (R134, R136). -/
def State.startY (s : State) (y : RegIx) : Row := Fin.ofNat 32 (s.getV y).toNat

/-- `EA = I + row`, computed without wrap (R142). -/
def State.spriteAddr (s : State) (row : Nat) : Nat := s.I.toNat + row

/-- The check of R138: when a byte of the `n` rows lies above 0xFFF, the lowest offending address `max(I, 0x1000)`. It
covers all `n` rows, dropped rows included, and is made before anything is drawn. -/
def State.spriteFault (s : State) (n : Rows) : Option Nat :=
  if n.val ≥ 1 ∧ s.I.toNat + (n.val - 1) > memLast then some (max s.I.toNat 0x1000) else none

end Sys2Proof.Machine
end

