-- ==== Sys2Proof/Machine/Blit.lean ====
section
/-! DEFINITION. The sprite-blit engine of `Dxyn`: the loops of spec 43_display.md R134, rows outside, bits inside, with
XOR drawing, horizontal wrap, bottom clipping and collision detection. -/

namespace Sys2Proof.Machine

/-- What the loops of R134 carry: the display, and whether a collision has happened (which R134 keeps in `V[15]`). -/
structure Blit where
  disp : Display
  hit : Bool
deriving DecidableEq, Repr

/-- A set sprite bit meets a cell: a set cell is cleared and is a collision, a clear cell is set (R134). -/
def Blit.plot (p : Blit) (col : Col) (row : Row) : Blit :=
  if p.disp.get col row then ⟨p.disp.put col row false, true⟩ else ⟨p.disp.put col row true, p.hit⟩

/-- The column of sprite bit `bit`: `(startX + bit) mod 64` (R136). -/
def spriteCol (startX : Col) (bit : Nat) : Col := Fin.ofNat 64 (startX.val + bit)

/-- One bit of a sprite row; bit 0 of the loop is the MOST significant bit of the byte, and a 0 bit changes nothing. -/
def Blit.bit (startX : Col) (row : Row) (b : Byte) (p : Blit) (bit : Nat) : Blit :=
  if b.getLsbD (7 - bit) then p.plot (spriteCol startX bit) row else p

/-- One sprite row: its 8 bits in order, on one display row (R134). -/
def Blit.byte (p : Blit) (startX : Col) (row : Row) (b : Byte) : Blit :=
  (List.range 8).foldl (Blit.bit startX row b) p

/-- Sprite row `k`: display row `startY + k` when that is at most 31, else dropped (R136). -/
def Blit.row (s : State) (startX : Col) (startY : Row) (p : Blit) (k : Nat) : Blit :=
  if h : startY.val + k ≤ 31 then
    p.byte startX ⟨startY.val + k, by omega⟩ (s.MEM.read (s.spriteAddr k))
  else p

/-- The whole sprite: rows `0 .. n-1`, from the display as it is and no collision (R134). -/
def State.blit (s : State) (startX : Col) (startY : Row) (n : Nat) : Blit :=
  (List.range n).foldl (Blit.row s startX startY) ⟨s.DISP, false⟩

end Sys2Proof.Machine
end

