-- ==== Sys2Proof/Machine/Flags.lean ====
section
/-! DEFINITION. The one flag of the core: VF, written as a side effect by `Dxyn` alone (spec 10_state.md R24,
43_display.md R137). No other instruction computes a flag. -/

namespace Sys2Proof.Machine

open Sys2Proof.Config

/-- The value of VF after a draw: 0x01 when a set sprite bit met a set cell, else 0x00, never another (R134). -/
def collisionFlag (hit : Bool) : Byte := if hit then 0x01 else 0x00

/-- VF written with the collision result. -/
def State.setCollision (s : State) (hit : Bool) : State := s.setV flagReg (collisionFlag hit)

end Sys2Proof.Machine
end

