-- ==== Sys2Proof/Machine/Display.lean ====
section
/-! DEFINITION. Display operations (spec 43_display.md). A meaning takes the state BEFORE the step and makes the advance
of 40_step_cycle.md R102 itself, first; a draw that faults raises in the state before the step (R106, R138). -/

namespace Sys2Proof.Machine

/-- `00E0`, `CLS` (R130): every display cell false; VF untouched. -/
def execCls (s : State) : Host.Outcome State Fault Refusal :=
  .next (s.advancePc.setDisp Display.clear)

/-- `Dxyn`, `DRW Vx, Vy, n` (R134): the coordinates are read before VF is written (R135); the sprite's addresses are
checked before anything changes (R138); then the sprite is blitted and VF takes the collision result. -/
def execDrw (x y : RegIx) (n : Rows) (s : State) : Host.Outcome State Fault Refusal :=
  match s.spriteFault n with
  | some b => .next (s.raise (.outOfBounds b))
  | none =>
    let p := s.blit (s.startX x) (s.startY y) n.val
    .next ((s.advancePc.setDisp p.disp).setCollision p.hit)

end Sys2Proof.Machine
end

