-- ==== Sys2Proof/Machine/Jump.lean ====
section
/-! DEFINITION. Control transfer (spec 41_jump.md). A meaning takes the state BEFORE the step and makes the advance of
40_step_cycle.md R102 itself, first. -/

namespace Sys2Proof.Machine

/-- `1nnn`, `JP nnn` (R115): `pc <- zext_16(nnn)`, which replaces the advanced `pc`; any target, odd or low (R117). -/
def execJp (nnn : Addr12) (s : State) : Host.Outcome State Fault Refusal :=
  .next (s.advancePc.setPc (zext16 nnn))

end Sys2Proof.Machine
end

