-- ==== Sys2Proof/Machine/RegisterImmediate.lean ====
section
/-! DEFINITION. Register-immediate operations (spec 42_register_immediate.md). A meaning takes the state BEFORE the step
and makes the advance of 40_step_cycle.md R102 itself, first. -/

namespace Sys2Proof.Machine

/-- `6xnn`, `LD Vx, nn` (R120): `V[x] <- nn`; VF is written like any other register (R121). -/
def execLdImm (x : RegIx) (nn : Byte) (s : State) : Host.Outcome State Fault Refusal :=
  .next (s.advancePc.setV x nn)

/-- `7xnn`, `ADD Vx, nn` (R123): `V[x] <- (V[x] + nn) mod 256`; no carry is recorded anywhere. -/
def execAddImm (x : RegIx) (nn : Byte) (s : State) : Host.Outcome State Fault Refusal :=
  .next (s.advancePc.setV x (addMod256 (s.getV x) nn))

/-- `Annn`, `LD I, nnn` (R126): `I <- zext_16(nnn)`; no memory is accessed. -/
def execLdI (nnn : Addr12) (s : State) : Host.Outcome State Fault Refusal :=
  .next (s.advancePc.setI (zext16 nnn))

end Sys2Proof.Machine
end

