-- ==== Sys2Proof/Machine/Cycle.lean ====
section
/-! DEFINITION. The step cycle (spec 40_step_cycle.md R100 to R106, R109): fetch, decode, dispatch. Each meaning makes the
advance of R102 itself, so that a raise leaves the state before the step but for `HALT` (R106; log entry 4). -/

namespace Sys2Proof.Machine

/-- One step. A halted core has no transition (R157). A fetch above 0xFFF raises `OutOfBounds` and its word is never
decoded; an unrecognized word raises `UnrecognizedInstruction` (R109, R145, R160). Raising is a next state. -/
def cycle (s : State) : Host.Outcome State Fault Refusal :=
  match s.HALT with
  | .halted f => .fault (.coreHalted f)
  | .running =>
    match s.fetch with
    | .error b => .next (s.raise (.outOfBounds b))
    | .ok w =>
      match decode w with
      | .error _ => .next (s.raise (.unrecognizedInstruction s.pc w))
      | .ok i => exec i s

end Sys2Proof.Machine
end

