-- ==== Sys2Proof/Machine/Step.lean ====
section
/-! DEFINITION. The step, and placing an instruction where the next step fetches. -/

namespace Sys2Proof.Machine

/-- The event `step` of the Decoder/Executor (spec 40_step_cycle.md R100): the cycle of Machine/Cycle.lean. -/
def step (s : State) : Host.Outcome State Fault Refusal := cycle s

/-- The state with an instruction of the opcode table where `step` fetches next, so that the very next step runs it
(log entry 2). -/
def State.withFetchWord (s : State) (nbits w : Nat) : State := s.placeWord (tableWord nbits w)

end Sys2Proof.Machine
end

