-- ==== Sys2Proof/Machine/Boot.lean ====
section
/-! DEFINITION. Reset and boot (spec 70_reset_and_hazards.md R190 to R194; 20_memory.md R57, R60, R61): the events
`reset`, `initializeFont` and `load`, and the launch state of a run. -/

namespace Sys2Proof.Machine

open Sys2Proof.Config

/-- The state the `reset` event leaves (R190): R38 before font initialisation, so every byte of memory is 0x00, the font
region among them. -/
def State.zeroed : State :=
  { State.reset with MEM := Memory.writeBytes [] fontBase (List.replicate fontBytes 0x00) }

/-- The `reset` event (R190): all state to its reset values; nothing is kept, and it is the only exit from a halt. -/
def State.resetEvent (_s : State) : State := State.zeroed

/-- `initializeFont()` (R57): the 80 bytes of the font table into 0x050 to 0x09F, and nothing else. Glyph 0 is the
constant `FONT[0]`; the argument is the parameter `FONT[1..15]` of R6. -/
def State.initializeFont (font : FontParam) (s : State) : State :=
  s.setMem (s.MEM.writeBytes fontBase (fontTableBytes (fontTable font)))

/-- The two load-time errors; no fault of the core (R61, R154). -/
inductive LoadError where
  | romUnreadable
  | romTooLarge
deriving DecidableEq, Repr

/-- The kind of a load-time error (R150). -/
def LoadError.kind : LoadError → FaultKind
  | .romUnreadable => .romUnreadable
  | .romTooLarge => .romTooLarge

/-- What the ROM source hands to `load`: it could not be opened or read, or a raw byte sequence (R60, R61). -/
inductive RomSource where
  | unreadable
  | bytes (rom : List Byte)
deriving DecidableEq, Repr

/-- `load(bytes, offset)` (R60): the bytes copied unchanged and in order, or a failure that writes nothing. -/
def State.load (src : RomSource) (offset : Nat) (s : State) : Except LoadError State :=
  match src with
  | .unreadable => .error .romUnreadable
  | .bytes rom =>
    if rom.length + offset > memSize then .error .romTooLarge
    else .ok (s.setMem (s.MEM.writeBytes offset rom))

/-- The launch state of a run (R194): after `reset`, `initializeFont` and `load`, a function of `rom` and of
`FONT[1..15]`, with the initial timer values a claim may choose (10_state.md R30; default 0x00). -/
def State.launch (font : FontParam) (rom : List Byte) (dt st : Byte) : Except LoadError State :=
  match (State.zeroed.initializeFont font).load (.bytes rom) progBase with
  | .ok s => .ok (s.setTimers dt st)
  | .error e => .error e

end Sys2Proof.Machine
end

