-- ==== Sys2Proof/Machine/Timer.lean ====
section
/-! DEFINITION. The Timer Driver (spec 60_exceptions.md R170 to R173): the event `tick`, and the sound query. -/

namespace Sys2Proof.Machine

/-- A timer counted down once: it saturates at 0 and never wraps to 255 (R170). -/
def countDown (t : Byte) : Byte := if t.toNat > 0 then t - 1 else t

/-- `tick()` (R170): the two timers, independently, in one event; no other effect. -/
def State.tick (s : State) : State := s.setTimers (countDown s.DT) (countDown s.ST)

/-- `n` ticks, for the closed form of R171. -/
def State.ticks : Nat → State → State
  | 0, s => s
  | n + 1, s => State.ticks n s.tick

/-- `isSoundActive()` (R179): true while `ST > 0`. -/
def State.isSoundActive (s : State) : Bool := decide (s.ST.toNat > 0)

end Sys2Proof.Machine
end

