-- ==== Sys2Proof/Machine/HostPort.lean ====
section
/-! DEFINITION. The run-time host interface (spec 60_exceptions.md R175 to R179): `setKeys` and the queries `fault` and
`isPixelSet` (`isSoundActive` is in Machine/Timer.lean). -/

namespace Sys2Proof.Machine

open Sys2Proof.Config

/-- `setKeys(k)` (R176): `KEY[j] <- k[j]` for every `j`, and nothing else. -/
def State.setKeys (k : Vector Bool 16) (s : State) : State := s.setKey k

/-- `fault()` (R177): returns `HALT`. -/
def State.faultQuery (s : State) : Halt := s.HALT

/-- The failure of a query: a violation of the contract by the host, which records the pair `(x, y)` (R150, R178). -/
inductive QueryError where
  | outOfBounds (x y : Nat)
deriving DecidableEq, Repr

/-- The kind of a query's failure (R150). -/
def QueryError.kind : QueryError → FaultKind
  | .outOfBounds _ _ => .outOfBounds

/-- `isPixelSet(x, y)` (R178): `DISP[x, y]` for coordinates inside the grid; outside it fails at the caller. -/
def State.isPixelSet (x y : Nat) (s : State) : Except QueryError Bool :=
  if h : x < dispW ∧ y < dispH then .ok (s.DISP.get ⟨x, h.1⟩ ⟨y, h.2⟩) else .error (.outOfBounds x y)

end Sys2Proof.Machine
end

