-- ==== Sys2Proof/Machine/Events.lean ====
section
/-! DEFINITION. The core under its host: the atomic events of spec 00_scope.md R8 and when each is enabled
(60_exceptions.md R175; 70_reset_and_hazards.md R193). The boot phase is no state of the core (R20): it stands beside it. -/

namespace Sys2Proof.Machine

open Sys2Proof.Config

/-- How far boot has come (R193): `reset`, `initializeFont`, `load`, then execution. -/
inductive Phase where
  /-- After `reset`: `initializeFont` is to come. -/
  | created
  /-- After `initializeFont`: `load` is to come. -/
  | fontReady
  /-- Boot is complete (R193). -/
  | executing
  /-- A load failed: no machine is there to run (R61). -/
  | dead (e : LoadError)
deriving DecidableEq, Repr

/-- The core and the phase of its boot. -/
structure System where
  phase : Phase
  core : State
deriving DecidableEq, Repr

/-- The events that change state (R8, R175). -/
inductive Event where
  | reset
  | initializeFont
  | load (src : RomSource) (offset : Nat)
  | step
  | tick
  | setKeys (k : Vector Bool 16)
deriving DecidableEq, Repr

/-- Creation at startup, which the spec renders as the `reset` event (R190). -/
def System.initial : System := ⟨.created, State.zeroed⟩

/-- `step()` as an event: enabled when the core is running (R100, R157). -/
def System.stepEvent (c : State) : Option System :=
  match Sys2Proof.Machine.step c with
  | .next c' => some ⟨.executing, c'⟩
  | .fault _ => none
  | .refused _ => none

/-- `load` as an event (R60, R61): at 0x200 only, once. -/
def System.loadEvent (src : RomSource) (offset : Nat) (c : State) : Option System :=
  if offset = progBase then
    match c.load src offset with
    | .ok c' => some ⟨.executing, c'⟩
    | .error e => some ⟨.dead e, c⟩
  else none

/-- One event, with the parameter `FONT[1..15]`; none where it is not enabled (R175). -/
def System.apply (font : FontParam) (e : Event) (y : System) : Option System :=
  match e, y.phase with
  | .reset, _ => some ⟨.created, y.core.resetEvent⟩
  | .initializeFont, .created => some ⟨.fontReady, y.core.initializeFont font⟩
  | .load src offset, .fontReady => System.loadEvent src offset y.core
  | .step, .executing => System.stepEvent y.core
  | .tick, .executing => some ⟨.executing, y.core.tick⟩
  | .setKeys k, .executing => some ⟨.executing, y.core.setKeys k⟩
  | _, _ => none

/-- A schedule of events, chosen by the host (R9, R36); none when one of them is not enabled. -/
def System.run (font : FontParam) : List Event → System → Option System
  | [], y => some y
  | e :: es, y =>
    match y.apply font e with
    | some y' => System.run font es y'
    | none => none

/-- The read-only queries (R8, R175). -/
inductive Query where
  | fault
  | isPixelSet (x y : Nat)
  | isSoundActive
deriving DecidableEq, Repr

/-- What a query returns. -/
inductive Answer where
  | halt (h : Halt)
  | pixel (b : Bool)
  | sound (b : Bool)
deriving DecidableEq, Repr

/-- A query after boot, running or halted; the host has no move that asks for a pixel outside the grid (R178). -/
def System.ask (q : Query) (y : System) : Option Answer :=
  match y.phase, q with
  | .executing, .fault => some (.halt y.core.faultQuery)
  | .executing, .isSoundActive => some (.sound y.core.isSoundActive)
  | .executing, .isPixelSet a b => (y.core.isPixelSet a b).toOption.map Answer.pixel
  | _, _ => none

end Sys2Proof.Machine
end

