-- ==== Sys2Proof/Safety.lean ====
section
/-! DEFINITION. What counts as a good state and a safe run, in the terms claims use (spec 10_state.md R37). -/

namespace Sys2Proof

/-- What R86 says of an assembler item: its operands are well formed exactly in `range`; there it stands for the
instruction `i` (none for a data directive) and places the bytes `bs`, which decode to `i`; outside it stands for nothing
and places nothing. -/
def AsmItem.Assembles (a : AsmItem) (range : Prop) (i : Option Instr) (bs : List Byte) : Prop :=
  (a.wellFormed = true ↔ range) ∧
  (range → a.toInstr = i ∧ a.bytes = some bs ∧ ∀ j, i = some j → decodeBytes bs = .ok (j, [])) ∧
  (¬ range → a.toInstr = none ∧ a.bytes = none)

end Sys2Proof

namespace Sys2Proof.Machine

open Sys2Proof.Config

/-- What the latch records agrees with the state it stands in: a step leaves every other field as it was (R106), so `pc`
is still the address of the faulting instruction and memory still holds its word. -/
def State.haltRecordOk (s : State) : Prop :=
  match s.HALT with
  | .running => True
  | .halted (.unrecognizedInstruction a w) => a = s.pc ∧ s.fetch = .ok w ∧ decode w = .error (.unrecognized w)
  | .halted .stackOverflow => False
  | .halted .stackUnderflow => False
  | .halted (.outOfBounds b) =>
    b = 0x1000 ∧ (s.fetch = .error b ∨
      ∃ w x y n, s.fetch = .ok w ∧ decode w = .ok (.drw x y n) ∧ s.spriteFault n = some b)

/-- The invariant of the core (R37, R29, R25, R28): it holds after reset and every step keeps it. `memory_canonical` is the
model's own clause (log entry 3); `halt_record` rests on the spec's decision D4. -/
structure State.Inv (s : State) : Prop where
  memory_canonical : s.MEM.wf = true
  stack_pointer_legal : s.SP.toNat ≤ stackDepth
  index_is_address : s.I.toNat ≤ memLast
  pc_bound : s.pc.toNat ≤ 0x1000
  halt_record : s.haltRecordOk

/-- The fields no step writes (R107, R148): memory, the call stack, the timers and the key latch. -/
def State.SameUnwritten (s t : State) : Prop :=
  t.MEM = s.MEM ∧ t.STACK = s.STACK ∧ t.SP = s.SP ∧ t.DT = s.DT ∧ t.ST = s.ST ∧ t.KEY = s.KEY

/-- The fields a step depends on (R107), with the latch that enables it. -/
def State.SameInputs (s t : State) : Prop :=
  t.MEM = s.MEM ∧ t.V = s.V ∧ t.I = s.I ∧ t.pc = s.pc ∧ t.DISP = s.DISP ∧ t.HALT = s.HALT

/-- The cells a `Dxyn` flips (R134, R136): a set bit of a sprite row lands on the cell. Bit `k` of the byte at `I + row`,
0 the most significant, goes to column `(V[x] mod 64 + k) mod 64` of display row `V[y] mod 32 + row`; a sprite row beyond
display row 31 lands on no cell. -/
def State.DrawCovers (s : State) (x y : RegIx) (n : Rows) (c : Col) (r : Row) : Prop :=
  ∃ row : Fin 16, ∃ k : Fin 8, row.val < n.val ∧ c.val = ((s.getV x).toNat % 64 + k.val) % 64 ∧
    r.val = (s.getV y).toNat % 32 + row.val ∧ (s.MEM.read (s.I.toNat + row.val)).getLsbD (7 - k.val) = true

/-- The invariant of the core under its host (R37, R29, R173): it holds at creation and every event keeps it. Beside the
core's own invariant: no event writes the call stack or raises a timer, and the core is running until boot is complete. The phases
are the model's own form (log entry 6). -/
structure System.Inv (y : System) : Prop where
  core_inv : y.core.Inv
  stack_pointer_zero : y.core.SP = 0
  stack_zero : ∀ k : Fin 16, y.core.STACK[k] = 0x0000
  delay_timer_zero : y.core.DT = 0x00
  sound_timer_zero : y.core.ST = 0x00
  running_in_boot : y.phase ≠ .executing → y.core.HALT = .running

/-- The states of the core under its host that a schedule of events from creation leads to (R8, R9). -/
inductive System.Reachable (font : FontParam) : System → Prop where
  | initial : System.Reachable font System.initial
  | event {y z : System} (e : Event) (h : System.Reachable font y) (he : y.apply font e = some z) :
      System.Reachable font z

end Sys2Proof.Machine
end

