-- ==== Sys2Proof/Certificates/Slice0/Obligations.lean ====
section
/-! DEFINITION. The statements for the provers, each a rule of the spec said of the model. A docstring names the rule or
section it formalises; where a statement rests on a decision of the spec (92_eei_decisions.md) or of this model
(notes/assumptions), it says so. -/

open Sys2Proof Sys2Proof.Machine Sys2Proof.Config

/-! ### Encoding and decoding -/

/-- 30_encoding.md section 3 and the vectors T-E1 to T-E12 of 95_test_vectors.md: a word of each family decodes to the
instruction it stands for, and neighbours of `00E0` do not decode. That those do not rests on the decisions D2 and D3. -/
def Obligations.SpecWordsDecode : Prop :=
  decode 0x00E0 = .ok .cls ∧ decode 0x1FFF = .ok (.jp 0xFFF) ∧ decode 0x6A12 = .ok (.ldImm 10 0x12) ∧
  decode 0x7F01 = .ok (.addImm 15 0x01) ∧ decode 0xA050 = .ok (.ldI 0x050) ∧ decode 0xD015 = .ok (.drw 0 1 5) ∧
  decode 0xDAB0 = .ok (.drw 10 11 0) ∧ decode 0x0000 = .error (.unrecognized 0x0000) ∧
  decode 0x00EE = .error (.unrecognized 0x00EE) ∧ decode 0x01E0 = .error (.unrecognized 0x01E0)

/-- 40_step_cycle.md R103: the six canonical fields, as numbers, of every word. -/
def Obligations.CanonicalFieldsOfEveryWord : Prop :=
  ∀ w : Word, (extractFields w).op.toNat = w.toNat / 4096 ∧ (extractFields w).x.val = w.toNat / 256 % 16 ∧
    (extractFields w).y.val = w.toNat / 16 % 16 ∧ (extractFields w).n.val = w.toNat % 16 ∧
    (extractFields w).nn.toNat = w.toNat % 256 ∧ (extractFields w).nnn.toNat = w.toNat % 4096

/-- 30_encoding.md sections 1 and 3: decoding the word of any instruction gives that instruction, every operand at every
value; and so does decoding its two bytes, whatever follows them. -/
def Obligations.DecodeOfEncodeIsInstruction : Prop :=
  ∀ (i : Instr) (rest : List Byte),
    decode (encode i) = .ok i ∧ decodeBytes (encodeBytes i ++ rest) = .ok (i, rest)

/-- 30_encoding.md section 3: a word that decodes is the word of what it decodes to, so no two words mean the same. That
0x00E0 alone is CLS rests on the decision D3. -/
def Obligations.EncodeOfDecodeIsWord : Prop :=
  ∀ (w : Word) (i : Instr), decode w = .ok i → encode i = w

/-- 30_encoding.md sections 3 and 4, 44_unrecognized.md section 1: the words that are unrecognized are exactly those that
are not 0x00E0 and whose top nibble is none of 1, 6, 7, A, D. Rests on the decisions D2 and D3. -/
def Obligations.UnrecognizedWordsExactly : Prop :=
  ∀ w : Word, decode w = .error (.unrecognized w) ↔
    w ≠ 0x00E0 ∧ ∀ k ∈ [0x1, 0x6, 0x7, 0xA, 0xD], w.toNat / 4096 ≠ k

/-- 30_encoding.md section 3: "The patterns of different rows never overlap". -/
def Obligations.OpcodeRowsNeverOverlap : Prop :=
  opcodeMap.Pairwise fun r q => ∀ w : Word, ¬ (r.hits w = true ∧ q.hits w = true)

/-- 30_encoding.md section 5: for each item of the assembler's table, the range of its operands, the instruction it stands
for (none for the data directives) and the bytes it places, which decode to that instruction. The spelling rests on the
decision D22; that an item out of its range stands for nothing and places nothing is the model's choice (log entry 8). -/
def Obligations.AssembledItemsDecode : Prop :=
  AsmItem.cls.Assembles True (some .cls) [0x00, 0xE0] ∧
  (∀ nnn : Nat, (AsmItem.jp nnn).Assembles (nnn ≤ 0xFFF) (some (.jp (BitVec.ofNat 12 nnn)))
    [BitVec.ofNat 8 (0x10 + nnn / 256), BitVec.ofNat 8 nnn]) ∧
  (∀ x nn : Nat, (AsmItem.ldImm x nn).Assembles (x ≤ 15 ∧ nn ≤ 255)
    (some (.ldImm (Fin.ofNat 16 x) (BitVec.ofNat 8 nn))) [BitVec.ofNat 8 (0x60 + x), BitVec.ofNat 8 nn]) ∧
  (∀ x nn : Nat, (AsmItem.addImm x nn).Assembles (x ≤ 15 ∧ nn ≤ 255)
    (some (.addImm (Fin.ofNat 16 x) (BitVec.ofNat 8 nn))) [BitVec.ofNat 8 (0x70 + x), BitVec.ofNat 8 nn]) ∧
  (∀ nnn : Nat, (AsmItem.ldI nnn).Assembles (nnn ≤ 0xFFF) (some (.ldI (BitVec.ofNat 12 nnn)))
    [BitVec.ofNat 8 (0xA0 + nnn / 256), BitVec.ofNat 8 nnn]) ∧
  (∀ x y n : Nat, (AsmItem.drw x y n).Assembles (x ≤ 15 ∧ y ≤ 15 ∧ n ≤ 15)
    (some (.drw (Fin.ofNat 16 x) (Fin.ofNat 16 y) (Fin.ofNat 16 n)))
    [BitVec.ofNat 8 (0xD0 + x), BitVec.ofNat 8 (16 * y + n)]) ∧
  (∀ h : Nat, (AsmItem.dw h).Assembles (h ≤ 0xFFFF) none [BitVec.ofNat 8 (h / 256), BitVec.ofNat 8 h]) ∧
  ∀ h : Nat, (AsmItem.db h).Assembles (h ≤ 0xFF) none [BitVec.ofNat 8 h]

/-! ### The step cycle -/

/-- 40_step_cycle.md sections 2 and 3: when the bytes at `pc` decode to an instruction, the step of a running core is
`exec` of it. That the advance of `pc` is part of each `exec` is the model's choice (log entry 4; see the instructions' own
statements). -/
def Obligations.StepRunsDecodedInstruction : Prop :=
  ∀ (s : State) (i : Instr), s.HALT = .running → s.pc.toNat ≤ 0xFFE →
    decode (wordOfBytes (s.MEM.read s.pc.toNat) (s.MEM.read (s.pc.toNat + 1))) = .ok i → step s = exec i s

/-- 20_memory.md section 2 and 40_step_cycle.md section 2: at any `pc` up to 0xFFE, even or odd, the fetch gives the word
whose high byte is `MEM[pc]` and whose low byte is `MEM[pc+1]`. Rests on the decision D7 for odd `pc`. -/
def Obligations.FetchIsBigEndian : Prop :=
  ∀ s : State, s.pc.toNat ≤ 0xFFE → ∃ w : Word, s.fetch = .ok w ∧
    w.toNat = 256 * (s.MEM.read s.pc.toNat).toNat + (s.MEM.read (s.pc.toNat + 1)).toNat

/-- 20_memory.md section 6: a checked read of one or two bytes succeeds inside memory, gives the big-endian word, and
past 0xFFF fails with the lowest address above it; nothing wraps. Rests on the decision D6. -/
def Obligations.CheckedReadsNeverWrap : Prop :=
  ∀ (s : State) (a : Nat),
    (a ≤ 0xFFF → s.memRead1 a = .ok (s.MEM.read a)) ∧ (0xFFF < a → s.memRead1 a = .error a) ∧
    (a < 0xFFF → ∃ w : Word, s.memRead2 a = .ok w ∧
      w.toNat = 256 * (s.MEM.read a).toNat + (s.MEM.read (a + 1)).toNat) ∧
    (a = 0xFFF → s.memRead2 a = .error 0x1000) ∧ (0xFFF < a → s.memRead2 a = .error a)

/-- 40_step_cycle.md section 2, 60_exceptions.md sections 1 and 3: a fetch at `pc >= 0xFFF` raises `OutOfBounds` of the
lowest address above 0xFFF, changing `HALT` alone. Rests on the decisions D4 and D6. -/
def Obligations.FetchPastMemoryHalts : Prop :=
  ∀ s : State, s.HALT = .running → 0xFFF ≤ s.pc.toNat →
    step s = .next { s with HALT := .halted (.outOfBounds (max s.pc.toNat 0x1000)) }

/-- 44_unrecognized.md section 1: an unrecognized word raises `UnrecognizedInstruction(pc, w)`, changing `HALT` alone.
Which words those are rests on the decisions D2 and D3, the precise halt on D4. -/
def Obligations.UnrecognizedWordHalts : Prop :=
  ∀ (s : State) (w : Word), s.HALT = .running → s.fetch = .ok w → w ≠ 0x00E0 →
    (∀ k ∈ [0x1, 0x6, 0x7, 0xA, 0xD], w.toNat / 4096 ≠ k) →
    step s = .next { s with HALT := .halted (.unrecognizedInstruction s.pc w) }

/-- 60_exceptions.md section 2: a halted core has no step, and a core that has no step is halted. Rests on the decision
D15. The form of the stop, `Fault.coreHalted`, and that it carries the latched fault are the model's choice (log entry
5). -/
def Obligations.OnlyHaltedCoreHasNoStep : Prop :=
  ∀ (s : State) (f : CoreFault), step s = .fault (.coreHalted f) ↔ s.HALT = .halted f

/-- 40_step_cycle.md sections 1 and 4: a running core always steps to a next state: it executes one instruction or
latches one fault; nothing blocks and nothing is refused. That a fault is a next state follows the decision D4. -/
def Obligations.RunningCoreAlwaysSteps : Prop :=
  ∀ s : State, s.HALT = .running → ∃ t, step s = .next t

/-- 40_step_cycle.md section 3: a step that halts is precise: `HALT` is all it changes. Rests on the decision D4. -/
def Obligations.FaultingStepIsPrecise : Prop :=
  ∀ (s t : State) (f : CoreFault), step s = .next t → t.HALT = .halted f → t = { s with HALT := .halted f }

/-- 60_exceptions.md sections 1 and 3: exactly when a step of a running core latches a fault, and which: the fetch first,
then the decode, then the sprite read of a `Dxyn`. Rests on the decisions D4, D6 and D9. -/
def Obligations.FaultsInPriorityOrder : Prop :=
  ∀ (s : State) (f : CoreFault), s.HALT = .running →
    ((∃ t, step s = .next t ∧ t.HALT = .halted f) ↔
      (0xFFF ≤ s.pc.toNat ∧ f = .outOfBounds (max s.pc.toNat 0x1000)) ∨
      ∃ w, s.fetch = .ok w ∧
        ((decode w = .error (.unrecognized w) ∧ f = .unrecognizedInstruction s.pc w) ∨
         ∃ x y n, decode w = .ok (.drw x y n) ∧ 1 ≤ n.val ∧ 0xFFF < s.I.toNat + n.val - 1 ∧
           f = .outOfBounds (max s.I.toNat 0x1000)))

/-- 40_step_cycle.md section 4, 44_unrecognized.md section 2, 20_memory.md section 6: no step writes memory, the call
stack, its pointer, a timer or the key latch. -/
def Obligations.NoStepWritesMemoryStackTimersKeys : Prop :=
  ∀ s t : State, step s = .next t → s.SameUnwritten t

/-- 40_step_cycle.md section 4: a step is a function of `MEM`, `pc`, `V`, `I` and `DISP`: two cores that agree on them
(and on `HALT`) step to cores that agree on them, whatever the timers, the keys and the stack hold. -/
def Obligations.StepIgnoresTimersKeysStack : Prop :=
  ∀ s₁ s₂ t₁ : State, s₁.SameInputs s₂ → step s₁ = .next t₁ → ∃ t₂, step s₂ = .next t₂ ∧ t₁.SameInputs t₂

/-- 10_state.md section 6: how a step that does not fault leaves `pc`: `nnn` after a jump, two above its address after
every other instruction. -/
def Obligations.StepLeavesPcAsTableSays : Prop :=
  ∀ (s t : State) (w : Word) (i : Instr), s.fetch = .ok w → decode w = .ok i → step s = .next t →
    t.HALT = .running →
    match i with
    | .jp nnn => t.pc.toNat = nnn.toNat
    | .cls => t.pc.toNat = s.pc.toNat + 2
    | .ldImm _ _ => t.pc.toNat = s.pc.toNat + 2
    | .addImm _ _ => t.pc.toNat = s.pc.toNat + 2
    | .ldI _ => t.pc.toNat = s.pc.toNat + 2
    | .drw _ _ _ => t.pc.toNat = s.pc.toNat + 2

/-- The log entry 2: a word of the opcode table placed at the next fetch is the very next instruction to run, from any
state whose memory is canonical (log entry 3). A convention of the model, not of the spec. -/
def Obligations.PlacedInstructionRunsNext : Prop :=
  ∀ (s : State) (i : Instr), s.MEM.wf = true →
    step (s.withFetchWord 16 (encode i).toNat) = exec i (s.withFetchWord 16 (encode i).toNat)

/-! ### The instructions: result, completion and frame -/

/-- 41_jump.md R115: `1nnn` always completes with `pc = nnn` and all other state as it was; every word of class 1 is this
instruction with `nnn` its low twelve bits. -/
def Obligations.JumpSetsPcExactly : Prop :=
  (∀ (s : State) (nnn : Addr12), exec (.jp nnn) s = .next { s with pc := BitVec.ofNat 16 nnn.toNat }) ∧
  ∀ w : Word, w.toNat / 4096 = 0x1 → decode w = .ok (.jp (BitVec.ofNat 12 w.toNat))

/-- 42_register_immediate.md R120: `6xnn` always completes with `V[x] = nn`, for every `x` (VF among them), `pc` advanced
and all other state as it was; every word of class 6 is this instruction. -/
def Obligations.SetImmediateWritesRegister : Prop :=
  (∀ (s : State) (x : RegIx) (nn : Byte),
    exec (.ldImm x nn) s = .next { s with V := s.V.set x.val nn, pc := s.pc + 2 }) ∧
  ∀ w : Word, w.toNat / 4096 = 0x6 →
    decode w = .ok (.ldImm (Fin.ofNat 16 (w.toNat / 256)) (BitVec.ofNat 8 w.toNat))

/-- 42_register_immediate.md R123: `7xnn` always completes with `V[x] = (V[x] + nn) mod 256`, `pc` advanced and all other
state as it was: no carry is recorded, so VF is untouched when `x` is not 15; every word of class 7 is this instruction. -/
def Obligations.AddImmediateWrapsWithoutCarry : Prop :=
  (∀ (s : State) (x : RegIx) (nn : Byte), ∃ v : Byte, v.toNat = ((s.getV x).toNat + nn.toNat) % 256 ∧
    exec (.addImm x nn) s = .next { s with V := s.V.set x.val v, pc := s.pc + 2 }) ∧
  ∀ w : Word, w.toNat / 4096 = 0x7 →
    decode w = .ok (.addImm (Fin.ofNat 16 (w.toNat / 256)) (BitVec.ofNat 8 w.toNat))

/-- 42_register_immediate.md R126: `Annn` always completes with `I = zext(nnn)`, `pc` advanced and all other state as it
was; the previous `I` has no influence; a following `Dxy1` reads the one byte at `nnn` and cannot fault; every word of
class A is this instruction. -/
def Obligations.LoadIndexSetsI : Prop :=
  (∀ (s : State) (nnn : Addr12),
    exec (.ldI nnn) s = .next { s with I := BitVec.ofNat 16 nnn.toNat, pc := s.pc + 2 }) ∧
  (∀ (s : State) (nnn : Addr12) (old : Word), exec (.ldI nnn) { s with I := old } = exec (.ldI nnn) s) ∧
  (∀ (s t : State) (nnn : Addr12), exec (.ldI nnn) s = .next t →
    t.spriteAddr 0 = nnn.toNat ∧ t.spriteFault 1 = none) ∧
  ∀ w : Word, w.toNat / 4096 = 0xA → decode w = .ok (.ldI (BitVec.ofNat 12 w.toNat))

/-- 43_display.md section 1: `00E0` always completes with every cell false, `pc` advanced and all other state, VF among
it, as it was, so that every pixel query inside the grid then answers false. That the word 0x00E0 alone is this
instruction rests on the decision D3. -/
def Obligations.ClearMakesEveryCellFalse : Prop :=
  (∀ s : State, ∃ t, exec .cls s = .next t ∧ (∀ c r, t.DISP.get c r = false) ∧
    (∀ x y, x < 64 → y < 32 → t.isPixelSet x y = .ok false) ∧ t = { s with DISP := t.DISP, pc := s.pc + 2 }) ∧
  ∀ w : Word, decode w = .ok .cls ↔ w = 0x00E0

/-- 43_display.md section 2: when no sprite byte lies above 0xFFF, `Dxyn` completes. A cell is flipped exactly when a set
bit of a sprite row lands on it: bit `k` (0 the most significant) of the byte at `I + row` on column
`(V[x] mod 64 + k) mod 64` of display row `V[y] mod 32 + row`, which drops rows beyond 31; VF is 1 when a flipped cell
was set and 0 when none was; `pc` is advanced; every other register and all other state is as it was. Rests on the
decisions D9 (the check covers dropped rows) and D10 (for `x` or `y` 15 the coordinate is the old VF). -/
def Obligations.DrawXorsSpriteAndReportsCollision : Prop :=
  ∀ (s : State) (x y : RegIx) (n : Rows), (n.val = 0 ∨ s.I.toNat + n.val - 1 ≤ 0xFFF) →
    ∃ t, exec (.drw x y n) s = .next t ∧
      (∀ c r, (s.DrawCovers x y n c r → t.DISP.get c r = !s.DISP.get c r) ∧
        (¬ s.DrawCovers x y n c r → t.DISP.get c r = s.DISP.get c r)) ∧
      ((∃ c r, s.DrawCovers x y n c r ∧ s.DISP.get c r = true) → t.V = s.V.set 15 0x01) ∧
      (¬ (∃ c r, s.DrawCovers x y n c r ∧ s.DISP.get c r = true) → t.V = s.V.set 15 0x00) ∧
      t = { s with DISP := t.DISP, V := t.V, pc := s.pc + 2 }

/-- 43_display.md section 2: when a sprite byte lies above 0xFFF, `Dxyn` raises `OutOfBounds(max(I, 0x1000))`, changing
`HALT` alone: nothing is drawn and VF is not cleared. Rests on the decisions D4 and D9. -/
def Obligations.DrawPastMemoryHalts : Prop :=
  ∀ (s : State) (x y : RegIx) (n : Rows), 1 ≤ n.val → 0xFFF < s.I.toNat + n.val - 1 →
    exec (.drw x y n) s = .next { s with HALT := .halted (.outOfBounds (max s.I.toNat 0x1000)) }

/-- 43_display.md sections 2 and 3, 20_memory.md section 6: the check of a `Dxyn` finds nothing exactly when each of its
`n` byte reads succeeds, and otherwise records the address at which the first of them fails. Rests on the decisions D6 and
D9. -/
def Obligations.SpriteCheckIsFirstFailingRead : Prop :=
  ∀ (s : State) (n : Rows),
    (s.spriteFault n = none ↔ ∀ row, row < n.val → ∃ b, s.memRead1 (s.spriteAddr row) = .ok b) ∧
    ∀ a, s.spriteFault n = some a ↔ ∃ row, row < n.val ∧ s.memRead1 (s.spriteAddr row) = .error a ∧
      ∀ row', row' < row → ∃ b, s.memRead1 (s.spriteAddr row') = .ok b

/-- 43_display.md section 2: for `I <= 0xFF1` no `Dxyn` faults. -/
def Obligations.DrawBelowFF1NeverFaults : Prop :=
  ∀ (s : State) (x y : RegIx) (n : Rows), s.I.toNat ≤ 0xFF1 →
    ∃ t, exec (.drw x y n) s = .next t ∧ t.HALT = s.HALT ∧ t.pc = s.pc + 2

/-- 43_display.md section 2: `Dxy0` touches no cell, cannot fault whatever `I` is, and sets VF to 0. -/
def Obligations.DrawOfNoRowsClearsFlagOnly : Prop :=
  ∀ (s : State) (x y : RegIx), exec (.drw x y 0) s = .next { s with V := s.V.set 15 0x00, pc := s.pc + 2 }

/-- 43_display.md section 2: the same draw twice, the coordinate registers as they were (which the first draw can break
only through VF), puts the whole display back; when the covered cells were clear and there is one, VF is 0 after the first
and 1 after the second. -/
def Obligations.DrawingTwiceErases : Prop :=
  ∀ (s t u : State) (x y : RegIx) (n : Rows), exec (.drw x y n) s = .next t → t.HALT = s.HALT →
    s.HALT = .running → t.getV x = s.getV x → t.getV y = s.getV y → exec (.drw x y n) t = .next u →
    u.DISP = s.DISP ∧
    ((∀ c r, s.DrawCovers x y n c r → s.DISP.get c r = false) → (∃ c r, s.DrawCovers x y n c r) →
      t.getV 15 = 0x00 ∧ u.getV 15 = 0x01)

/-- 10_state.md sections 3 to 12: the frame of every instruction, faulting draws included. Memory, the stack, the timers
and the keys never change; a register changes only as the destination `x` of `6xnn` and `7xnn` or as VF in `Dxyn`; `I`
only in `Annn`; the display only in `00E0` and `Dxyn`; `HALT`, which is the decision D4, only in `Dxyn`. -/
def Obligations.FrameOfEveryInstruction : Prop :=
  ∀ (i : Instr) (s t : State), exec i s = .next t →
    (∀ a, t.MEM.read a = s.MEM.read a) ∧ s.SameUnwritten t ∧
    (∀ r : RegIx, (match i with | .ldImm x _ => r ≠ x | .addImm x _ => r ≠ x | .drw _ _ _ => r ≠ 15 | _ => True) →
      t.getV r = s.getV r) ∧
    ((match i with | .ldI _ => False | _ => True) → t.I = s.I) ∧
    ((match i with | .cls => False | .drw _ _ _ => False | _ => True) → ∀ c r, t.DISP.get c r = s.DISP.get c r) ∧
    ((match i with | .drw _ _ _ => False | _ => True) → t.HALT = s.HALT)

/-- 10_state.md section 4: VF after a `Dxyn` that does not fault is 0x00 or 0x01; and no other instruction changes VF
unless it names register 15 as its destination. -/
def Obligations.FlagWrittenByDrawAlone : Prop :=
  (∀ (s t : State) (x y : RegIx) (n : Rows), exec (.drw x y n) s = .next t → s.HALT = .running →
    t.HALT = .running → t.getV 15 = 0x00 ∨ t.getV 15 = 0x01) ∧
  ∀ (i : Instr) (s t : State), exec i s = .next t → t.getV 15 ≠ s.getV 15 →
    (∃ x y n, i = .drw x y n) ∨ (∃ nn, i = .ldImm 15 nn) ∨ (∃ nn, i = .addImm 15 nn)

/-- 41_jump.md section 2: a jump to its own address is a fixed point of the step. -/
def Obligations.JumpToSelfIsFixedPoint : Prop :=
  ∀ (s : State) (w : Word), s.HALT = .running → s.fetch = .ok w → decode w = .ok (.jp (s.pc.setWidth 12)) →
    step s = .next s

/-- 42_register_immediate.md section 1: executing a `6xnn` twice gives the same state as once, apart from `pc`. -/
def Obligations.SetImmediateIsIdempotent : Prop :=
  ∀ (s t u : State) (x : RegIx) (nn : Byte), exec (.ldImm x nn) s = .next t → exec (.ldImm x nn) t = .next u →
    u = { t with pc := s.pc + 4 }

/-! ### Invariants of the core -/

/-- 10_state.md section 14: every step keeps the invariant: canonical memory, `SP <= 16`, `I <= 0xFFF`, `pc <= 0x1000`,
and a latched fault that agrees with the state it stands in. The canonical memory is the model's own clause (log entry 3);
the clause on the latched fault, with `pc` still at the faulting instruction, rests on the decision D4. -/
def Obligations.StepKeepsInvariant : Prop :=
  ∀ s t : State, s.Inv → step s = .next t → t.Inv

/-- 10_state.md section 15: the state after reset meets the invariant of `StepKeepsInvariant`, whose clause of canonical
memory is the model's own (log entry 3) and whose clause on the latched fault rests on the decision D4. -/
def Obligations.ResetMeetsInvariant : Prop := State.reset.Inv

/-- 10_state.md section 15: the values after reset that the spec states: every register, the glyph the source prints, and
0x00 in every byte outside the font region. (`HALT` is the decision D4.) -/
def Obligations.ResetValues : Prop :=
  (∀ x, State.reset.getV x = 0x00) ∧ State.reset.I = 0x0000 ∧ State.reset.pc = 0x0200 ∧ State.reset.SP = 0 ∧
  (∀ k : Fin 16, State.reset.STACK[k] = 0x0000) ∧ State.reset.DT = 0x00 ∧ State.reset.ST = 0x00 ∧
  (∀ k : Fin 16, State.reset.KEY[k] = false) ∧ (∀ c r, State.reset.DISP.get c r = false) ∧
  State.reset.HALT = .running ∧ (∀ a, a < 0x050 ∨ 0x09F < a → State.reset.MEM.read a = 0x00) ∧
  [0x050, 0x051, 0x052, 0x053, 0x054].map State.reset.MEM.read = [0xF0, 0x90, 0x90, 0x90, 0xF0]

/-- 20_memory.md section 1 and the form of the model's memory: two canonical memories that read the same at every address
are the same. The form is the model's choice (log entry 3). -/
def Obligations.CanonicalMemoriesAreEqualData : Prop :=
  ∀ m m' : Memory, m.wf = true → m'.wf = true → (∀ a, m.read a = m'.read a) → m = m'

/-! ### Timers and the host interface -/

/-- 60_exceptions.md section 6: `tick` decrements each timer that is above 0 by 1, leaves one at 0 at 0, touches nothing
else, and is enabled in every state after boot, running or halted. That it is enabled in a halted core rests on the
decision D15; the phases of boot are the model's own form (log entry 6). -/
def Obligations.TickDecrementsTowardZero : Prop :=
  (∀ s : State, ∃ dt st : Byte, s.tick = { s with DT := dt, ST := st } ∧
    (0 < s.DT.toNat → dt.toNat = s.DT.toNat - 1) ∧ (s.DT.toNat = 0 → dt.toNat = 0) ∧
    (0 < s.ST.toNat → st.toNat = s.ST.toNat - 1) ∧ (s.ST.toNat = 0 → st.toNat = 0)) ∧
  ∀ (font : FontParam) (y : System), y.phase = .executing →
    y.apply font .tick = some ⟨.executing, y.core.tick⟩

/-- 60_exceptions.md section 6: after a schedule of steps, ticks and key updates with `N` ticks in it, each timer holds
`max(0, v - N)`, `v` its first value, however they are interleaved (Nat subtraction stops at 0). Rests on the decisions
D13 (a first value above 0) and D14 (any interleaving); the phases of boot are the model's own form (log entry 6). -/
def Obligations.TimersHoldClosedForm : Prop :=
  ∀ (font : FontParam) (es : List Event) (y z : System), y.phase = .executing →
    (∀ e ∈ es, e = .step ∨ e = .tick ∨ ∃ k, e = .setKeys k) → System.run font es y = some z →
    z.core.DT.toNat = y.core.DT.toNat - es.count .tick ∧ z.core.ST.toNat = y.core.ST.toNat - es.count .tick

/-- 60_exceptions.md section 7: from a state with `ST > 0`, `isSoundActive` is true for exactly `ST` ticks. That a timer can
be above 0 at all is the decision D13. -/
def Obligations.SoundActiveForExactlyItsTicks : Prop :=
  ∀ (s : State) (n : Nat), (State.ticks n s).isSoundActive = true ↔ n < s.ST.toNat

/-- 60_exceptions.md section 7: `setKeys` sets every flag and nothing else, and does not change what a step does. The bit
order rests on the decision D20. -/
def Obligations.SetKeysChangesKeysAlone : Prop :=
  ∀ (s : State) (k : Vector Bool 16), s.setKeys k = { s with KEY := k } ∧
    ∀ t, step s = .next t → step (s.setKeys k) = .next (t.setKeys k)

/-- 60_exceptions.md section 7: `isPixelSet` answers the cell inside the grid and fails outside it, recording the pair;
and the host has no move that asks outside it. Rests on the decision D23; that a query which is no move answers none is
the model's own form (log entry 6). -/
def Obligations.PixelQueryAnswersCell : Prop :=
  (∀ (s : State) (c : Col) (r : Row), s.isPixelSet c.val r.val = .ok (s.DISP.get c r)) ∧
  (∀ (s : State) (x y : Nat), 64 ≤ x ∨ 32 ≤ y → s.isPixelSet x y = .error (.outOfBounds x y)) ∧
  ∀ (y : System) (a b : Nat), 64 ≤ a ∨ 32 ≤ b → y.ask (.isPixelSet a b) = none

/-! ### Reset and boot -/

/-- 20_memory.md section 4: `initializeFont` writes glyph 0, the constant F0 90 90 90 F0, at 0x050 and byte `k` of glyph
`d` at `0x050 + 5*d + k`, for any value of the parameter `FONT[1..15]` (`font[d]` is glyph `d + 1`), and nothing else. The
order of the glyphs rests on the decision D12. That the event is not enabled once it has happened, until the next reset,
follows the order of 70_reset_and_hazards.md section 2, in the model's own phases (log entry 6); that memory stays
canonical is the model's own clause (log entry 3). -/
def Obligations.InitializeFontWritesTable : Prop :=
  (∀ (font : FontParam) (s : State), s.MEM.wf = true →
    [0x050, 0x051, 0x052, 0x053, 0x054].map (s.initializeFont font).MEM.read = [0xF0, 0x90, 0x90, 0x90, 0xF0] ∧
    (∀ (d : Fin 15) (k : Fin 5),
      (s.initializeFont font).MEM.read (0x050 + 5 * (d.val + 1) + k.val) = font[d][k]) ∧
    (∀ a, a < 0x050 ∨ 0x09F < a → (s.initializeFont font).MEM.read a = s.MEM.read a) ∧
    (s.initializeFont font).MEM.wf = true ∧ s.initializeFont font = { s with MEM := (s.initializeFont font).MEM }) ∧
  ∀ (font : FontParam) (y : System), y.phase ≠ .created → y.apply font .initializeFont = none

/-- 20_memory.md section 5: a ROM of at most 3584 bytes is copied unchanged to 0x200 on and nothing else changes; one
byte more, or a source that cannot be read, fails and writes nothing. Rests on the decisions D19 (the offset 0x200 alone)
and D26 (a failure leaves no machine); that memory stays canonical is the model's own clause (log entry 3). -/
def Obligations.LoadCopiesOrFails : Prop :=
  ∀ (s : State) (rom : List Byte), s.MEM.wf = true →
    (rom.length ≤ 3584 → ∃ t, s.load (.bytes rom) 0x200 = .ok t ∧
      (∀ k, (h : k < rom.length) → t.MEM.read (0x200 + k) = rom[k]) ∧
      (∀ a, a < 0x200 ∨ 0x200 + rom.length ≤ a → t.MEM.read a = s.MEM.read a) ∧
      t.MEM.wf = true ∧ t = { s with MEM := t.MEM }) ∧
    (3584 < rom.length → s.load (.bytes rom) 0x200 = .error .romTooLarge) ∧
    s.load .unreadable 0x200 = .error .romUnreadable

/-- 70_reset_and_hazards.md section 1: the `reset` event, in any state, leaves every byte of memory 0x00, the font region
among them, and every other field as after reset, the latch `running`. Rests on the decision D28; that memory is canonical
is the model's own clause (log entry 3). -/
def Obligations.ResetEventZeroesEverything : Prop :=
  ∀ s : State, (∀ a, s.resetEvent.MEM.read a = 0x00) ∧ s.resetEvent.MEM.wf = true ∧
    s.resetEvent = { State.reset with MEM := s.resetEvent.MEM }

/-- 70_reset_and_hazards.md section 2: after `reset` and `initializeFont` with the default of `FONT[1..15]` the state is
exactly the reset state, as equal data. The bytes of glyphs 1 to F are that default (log entry 1, decision D11); that the
two memories are equal data rests on the model's form of memory (log entry 3). -/
def Obligations.FontedBootIsResetState : Prop :=
  ∀ s : State, s.resetEvent.initializeFont fontDefault = State.reset

/-- 70_reset_and_hazards.md section 2: boot in its order, for any `FONT[1..15]` and any ROM that fits, leads to a running
core at 0x200 that holds the font (glyph 0 its constant bytes) and the ROM, every register 0x00 and the display clear; and
before boot is complete no step, tick or key update is enabled. The order of the glyphs rests on the decision D12, and
that the launch state may carry chosen timers on D13; that memory is canonical is the model's own clause (log entry 3), and
so are the phases of boot (log entry 6). -/
def Obligations.BootLeadsToLaunchState : Prop :=
  (∀ (font : FontParam) (rom : List Byte), rom.length ≤ 3584 →
    ∃ s, System.run font [.initializeFont, .load (.bytes rom) 0x200] System.initial = some ⟨.executing, s⟩ ∧
      (∀ dt st, State.launch font rom dt st = .ok { s with DT := dt, ST := st }) ∧
      s = { State.reset with MEM := s.MEM } ∧ s.MEM.wf = true ∧
      [0x050, 0x051, 0x052, 0x053, 0x054].map s.MEM.read = [0xF0, 0x90, 0x90, 0x90, 0xF0] ∧
      (∀ (d : Fin 15) (k : Fin 5), s.MEM.read (0x050 + 5 * (d.val + 1) + k.val) = font[d][k]) ∧
      (∀ k, (h : k < rom.length) → s.MEM.read (0x200 + k) = rom[k]) ∧
      (∀ a, a < 0x050 ∨ (0x09F < a ∧ a < 0x200) ∨ 0x200 + rom.length ≤ a → s.MEM.read a = 0x00)) ∧
  ∀ (font : FontParam) (y : System), y.phase ≠ .executing →
    y.apply font .step = none ∧ y.apply font .tick = none ∧ ∀ k, y.apply font (.setKeys k) = none

/-! ### The core under its host -/

/-- 10_state.md section 14: every event keeps the invariant of the core under its host, for any `FONT[1..15]`: the core's
own invariant, `SP` 0, every stack entry 0x0000, both timers 0x00, and a running core until boot is complete. That no event
raises a timer rests on the decision D13, and the reset event on D28. The canonical memory in the invariant is the model's
own clause (log entry 3), as are the phases and the running core in the phase after a failed load (log entry 6); the clause
on the latched fault rests on the decision D4. -/
def Obligations.EventKeepsSystemInvariant : Prop :=
  ∀ (font : FontParam) (e : Event) (y z : System), y.Inv → y.apply font e = some z → z.Inv

/-- 10_state.md section 14, 70_reset_and_hazards.md section 1: the system at creation meets the invariant of
`EventKeepsSystemInvariant`, in which the canonical memory (log entry 3) and the phases (log entry 6) are the model's own
and the clause on the latched fault rests on the decision D4. -/
def Obligations.CreationMeetsSystemInvariant : Prop := System.initial.Inv

/-- 10_state.md section 14: in every state reachable from creation by the events, for any `FONT[1..15]`: the invariant
holds, `SP` is 0, every stack entry 0x0000, both timers 0x00; and the core is running until boot is complete. The canonical
memory in the invariant is the model's own clause (log entry 3), as are the phases and the running core in the phase after
a failed load (log entry 6); the clause on the latched fault rests on the decision D4, the timers on D13, and the reset
event on D28. -/
def Obligations.ReachableStatesMeetInvariants : Prop :=
  ∀ (font : FontParam) (y : System), System.Reachable font y →
    y.core.Inv ∧ y.core.SP = 0 ∧ (∀ k : Fin 16, y.core.STACK[k] = 0x0000) ∧ y.core.DT = 0x00 ∧
    y.core.ST = 0x00 ∧ (y.phase ≠ .executing → y.core.HALT = .running)

/-- 20_memory.md section 6: after boot, memory is constant until the next reset, whatever events happen. The phases are the
model's own form (log entry 6), and the reset event rests on the decision D28. -/
def Obligations.MemoryConstantAfterBoot : Prop :=
  ∀ (font : FontParam) (es : List Event) (y z : System), y.phase = .executing → Event.reset ∉ es →
    System.run font es y = some z → z.phase = .executing ∧ z.core.MEM = y.core.MEM

/-- 60_exceptions.md section 2: a halt is sticky: until a reset no event steps the core or changes any field but the
timers and the keys, while ticks, key updates and queries stay enabled. Rests on the decisions D4, D15 and D28; the phases
are the model's own form (log entry 6). -/
def Obligations.HaltIsStickyUntilReset : Prop :=
  ∀ (font : FontParam) (es : List Event) (y z : System) (f : CoreFault), y.phase = .executing →
    y.core.HALT = .halted f → Event.reset ∉ es → System.run font es y = some z →
    z.core = { y.core with DT := z.core.DT, ST := z.core.ST, KEY := z.core.KEY } ∧
    z.apply font .step = none ∧ z.apply font .tick = some ⟨.executing, z.core.tick⟩ ∧
    (∀ k, z.apply font (.setKeys k) = some ⟨.executing, z.core.setKeys k⟩) ∧
    z.ask .fault = some (.halt (.halted f))
end

