-- ==== Sys2Proof/Laws/Memory.lean ====
section
/-! SUPPORT. The laws of memory: reads after writes, and that every memory operation keeps the canonical form. -/

namespace Sys2Proof.Machine

open Sys2Proof.Config

namespace Memory

@[simp] theorem read_nil (a : Nat) : Memory.read [] a = background a := rfl

theorem read_cons (k : Nat) (c : Byte) (rest : Memory) (a : Nat) :
    Memory.read ((k, c) :: rest) a = if k = a then c else Memory.read rest a := rfl

@[simp] theorem wfFrom_nil (lo : Nat) : wfFrom lo [] = true := rfl

theorem wfFrom_cons {lo k : Nat} {c : Byte} {rest : Memory} :
    wfFrom lo ((k, c) :: rest) = true ↔
      lo ≤ k ∧ k < 4096 ∧ c ≠ background k ∧ wfFrom (k + 1) rest = true := by
  simp [wfFrom, and_assoc]

/-- A memory canonical from an address on is canonical from any lower one. -/
theorem wfFrom_mono {lo lo' : Nat} {m : Memory} (h : wfFrom lo m = true) (hle : lo' ≤ lo) : wfFrom lo' m = true := by
  cases m with
  | nil => rfl
  | cons e rest =>
    obtain ⟨k, c⟩ := e
    rw [wfFrom_cons] at h ⊢
    exact ⟨by omega, h.2⟩

/-- Below its first address a canonical memory reads as the background. -/
theorem read_of_lt {lo a : Nat} {m : Memory} (h : wfFrom lo m = true) (ha : a < lo) :
    Memory.read m a = background a := by
  induction m generalizing lo with
  | nil => rfl
  | cons e rest ih =>
    obtain ⟨k, c⟩ := e
    rw [wfFrom_cons] at h
    rw [read_cons, if_neg (by omega), ih h.2.2.2 (by omega)]

/-- A write leaves every other address alone. -/
theorem read_write_of_ne (m : Memory) {a c : Nat} (b : Byte) (h : c ≠ a) :
    (m.write a b).read c = m.read c := by
  induction m with
  | nil =>
    simp only [write]
    split
    · rfl
    · rw [read_cons, if_neg (Ne.symm h)]
  | cons e rest ih =>
    obtain ⟨k, d⟩ := e
    simp only [write]
    split
    · split
      · rfl
      · rw [read_cons, if_neg (Ne.symm h)]
    · split
      · next hk =>
        subst hk
        split
        · rw [read_cons, if_neg (Ne.symm h)]
        · rw [read_cons, if_neg (Ne.symm h), read_cons, if_neg (Ne.symm h)]
      · rw [read_cons, read_cons, ih]

theorem read_write_self_from {lo : Nat} (m : Memory) (a : Nat) (b : Byte) (h : wfFrom lo m = true) :
    (m.write a b).read a = b := by
  induction m generalizing lo with
  | nil =>
    simp only [write]
    split
    · next hb => exact hb.symm
    · simp [read_cons]
  | cons e rest ih =>
    obtain ⟨k, d⟩ := e
    have hw := wfFrom_cons.mp h
    simp only [write]
    split
    · next hlt =>
      split
      · next hb => rw [read_cons, if_neg (by omega), read_of_lt hw.2.2.2 (by omega), hb]
      · simp [read_cons]
    · split
      · next hk =>
        subst hk
        split
        · next hb => rw [read_of_lt hw.2.2.2 (by omega), hb]
        · simp [read_cons]
      · next hne => rw [read_cons, if_neg (Ne.symm hne), ih hw.2.2.2]

/-- A read after a write to the same address gives the byte written. -/
theorem read_write_self {m : Memory} (a : Nat) (b : Byte) (h : m.wf = true) : (m.write a b).read a = b :=
  read_write_self_from m a b h

theorem wfFrom_write {lo a : Nat} {b : Byte} {m : Memory} (h : wfFrom lo m = true) (hlo : lo ≤ a) (ha : a < 4096) :
    wfFrom lo (m.write a b) = true := by
  induction m generalizing lo with
  | nil =>
    simp only [write]
    split
    · rfl
    · next hb => exact wfFrom_cons.mpr ⟨hlo, ha, hb, rfl⟩
  | cons e rest ih =>
    obtain ⟨k, d⟩ := e
    have hw := wfFrom_cons.mp h
    simp only [write]
    split
    · split
      · exact h
      · next hlt hb => exact wfFrom_cons.mpr ⟨hlo, ha, hb, wfFrom_cons.mpr ⟨by omega, hw.2⟩⟩
    · split
      · next hk =>
        subst hk
        split
        · exact wfFrom_mono hw.2.2.2 (by omega)
        · next hb => exact wfFrom_cons.mpr ⟨hlo, ha, hb, hw.2.2.2⟩
      · exact wfFrom_cons.mpr ⟨hw.1, hw.2.1, hw.2.2.1, ih hw.2.2.2 (by omega)⟩

/-- A write to an address that exists keeps the canonical form. -/
theorem wf_write {m : Memory} {a : Nat} (b : Byte) (h : m.wf = true) (ha : a < 4096) : (m.write a b).wf = true :=
  wfFrom_write h (Nat.zero_le _) ha

@[simp] theorem writeBytes_nil (m : Memory) (a : Nat) : m.writeBytes a [] = m := rfl

@[simp] theorem writeBytes_cons (m : Memory) (a : Nat) (b : Byte) (bs : List Byte) :
    m.writeBytes a (b :: bs) = (m.write a b).writeBytes (a + 1) bs := rfl

/-- Bytes written inside memory keep the canonical form. -/
theorem wf_writeBytes {m : Memory} {a : Nat} {bs : List Byte} (h : m.wf = true) (hlen : a + bs.length ≤ 4096) :
    (m.writeBytes a bs).wf = true := by
  induction bs generalizing m a with
  | nil => exact h
  | cons b bs ih =>
    simp only [List.length_cons] at hlen
    exact ih (wf_write b h (by omega)) (by omega)

/-- Bytes written leave every address outside them alone. -/
theorem read_writeBytes_of_outside (m : Memory) {a c : Nat} (bs : List Byte) (h : c < a ∨ a + bs.length ≤ c) :
    (m.writeBytes a bs).read c = m.read c := by
  induction bs generalizing m a with
  | nil => rfl
  | cons b bs ih =>
    simp only [List.length_cons] at h
    rw [writeBytes_cons, ih _ (by omega), read_write_of_ne _ _ (by omega)]

/-- Bytes written are read back, each at its own address. -/
theorem read_writeBytes_inside {m : Memory} {a : Nat} {bs : List Byte} (h : m.wf = true)
    (hlen : a + bs.length ≤ 4096) (k : Nat) (hk : k < bs.length) :
    (m.writeBytes a bs).read (a + k) = bs[k] := by
  induction bs generalizing m a k with
  | nil => simp at hk
  | cons b bs ih =>
    simp only [List.length_cons] at hlen hk
    have hw : (m.write a b).wf = true := wf_write b h (by omega)
    rw [writeBytes_cons]
    cases k with
    | zero =>
      rw [read_writeBytes_of_outside _ _ (by omega), Nat.add_zero, read_write_self a b h]
      rfl
    | succ k =>
      have := ih (a := a + 1) hw (by omega) k (by omega)
      rw [show a + (k + 1) = a + 1 + k by omega, this]
      rfl

/-- The memory after reset is canonical. -/
theorem wf_reset : State.reset.MEM.wf = true := rfl

/-- The memory after the `reset` event, before the font, is what one write of 80 zero bytes leaves: canonical. -/
theorem wf_zeros : (Memory.writeBytes [] fontBase (List.replicate fontBytes 0x00)).wf = true :=
  wf_writeBytes rfl (by simp)

end Memory

/-! ### The font table -/

/-- A font table has 80 bytes. -/
theorem length_fontTableBytes (font : FontTable) : (fontTableBytes font).length = 80 := by
  simp [fontTableBytes, List.length_flatten, Function.comp_def]

/-- Equal-length vectors laid end to end: element `k` of vector `d` stands at `d * m + k`. -/
theorem flatten_getElem {α : Type} {m : Nat} (l : List (Vector α m)) (d k : Nat) (hd : d < l.length) (hk : k < m)
    (h : d * m + k < (l.map Vector.toList).flatten.length) :
    (l.map Vector.toList).flatten[d * m + k]'h = (l[d])[k] := by
  induction l generalizing d with
  | nil => simp at hd
  | cons a l ih =>
    simp only [List.map_cons, List.flatten_cons]
    cases d with
    | zero =>
      rw [List.getElem_append_left (by simpa using hk)]
      simp
    | succ d =>
      rw [List.getElem_append_right (by simp [Nat.add_mul]; omega)]
      simp only [List.length_cons] at hd
      have hx : (d + 1) * m + k - a.toList.length = d * m + k := by simp [Nat.add_mul]; omega
      simp only [hx, List.getElem_cons_succ]
      exact ih d (by omega) _

/-- Glyph 0 is the constant `FONT[0]`, whatever the parameter (R6). -/
@[simp] theorem fontTable_zero (font : FontParam) : (fontTable font)[0] = glyph0 := rfl

/-- Glyph `d + 1` is entry `d` of the parameter `FONT[1..15]`. -/
@[simp] theorem fontTable_succ (font : FontParam) (d : Nat) (h : d + 1 < 16) :
    (fontTable font)[d + 1] = font[d] := by
  simp [fontTable]

/-- Byte `k` of glyph `d` stands at `5 * d + k` of the table's bytes (R56). -/
theorem fontTableBytes_getElem (font : FontTable) (d : Fin 16) (k : Fin 5)
    (h : 5 * d.val + k.val < (fontTableBytes font).length) :
    (fontTableBytes font)[5 * d.val + k.val]'h = font[d][k] := by
  have := flatten_getElem font.toList d k (by simp) k.2 (by simpa [Nat.mul_comm, fontTableBytes] using h)
  simp only [fontTableBytes, Nat.mul_comm 5]
  exact this

/-- Outside the font region the background is 0x00 (R38). -/
theorem background_outside {a : Nat} (h : a < 0x050 ∨ 0x09F < a) : Memory.background a = 0x00 := by
  unfold Memory.background fontByte
  rw [dif_neg (by simp; omega)]

end Sys2Proof.Machine
end

