-- ==== Sys2Proof/Laws/State.lean ====
section
/-! SUPPORT. One lemma per field of `State` per update, so that no later proof unfolds a record update. -/

namespace Sys2Proof.Machine

namespace State

variable (s : State)

/-! ### `setV` -/

@[simp] theorem setV_MEM (x : RegIx) (v : Byte) : (s.setV x v).MEM = s.MEM := rfl
@[simp] theorem setV_V (x : RegIx) (v : Byte) : (s.setV x v).V = s.V.set x.val v := rfl
@[simp] theorem setV_I (x : RegIx) (v : Byte) : (s.setV x v).I = s.I := rfl
@[simp] theorem setV_pc (x : RegIx) (v : Byte) : (s.setV x v).pc = s.pc := rfl
@[simp] theorem setV_STACK (x : RegIx) (v : Byte) : (s.setV x v).STACK = s.STACK := rfl
@[simp] theorem setV_SP (x : RegIx) (v : Byte) : (s.setV x v).SP = s.SP := rfl
@[simp] theorem setV_DT (x : RegIx) (v : Byte) : (s.setV x v).DT = s.DT := rfl
@[simp] theorem setV_ST (x : RegIx) (v : Byte) : (s.setV x v).ST = s.ST := rfl
@[simp] theorem setV_KEY (x : RegIx) (v : Byte) : (s.setV x v).KEY = s.KEY := rfl
@[simp] theorem setV_DISP (x : RegIx) (v : Byte) : (s.setV x v).DISP = s.DISP := rfl
@[simp] theorem setV_HALT (x : RegIx) (v : Byte) : (s.setV x v).HALT = s.HALT := rfl

/-! ### `setI` -/

@[simp] theorem setI_MEM (v : Word) : (s.setI v).MEM = s.MEM := rfl
@[simp] theorem setI_V (v : Word) : (s.setI v).V = s.V := rfl
@[simp] theorem setI_I (v : Word) : (s.setI v).I = v := rfl
@[simp] theorem setI_pc (v : Word) : (s.setI v).pc = s.pc := rfl
@[simp] theorem setI_STACK (v : Word) : (s.setI v).STACK = s.STACK := rfl
@[simp] theorem setI_SP (v : Word) : (s.setI v).SP = s.SP := rfl
@[simp] theorem setI_DT (v : Word) : (s.setI v).DT = s.DT := rfl
@[simp] theorem setI_ST (v : Word) : (s.setI v).ST = s.ST := rfl
@[simp] theorem setI_KEY (v : Word) : (s.setI v).KEY = s.KEY := rfl
@[simp] theorem setI_DISP (v : Word) : (s.setI v).DISP = s.DISP := rfl
@[simp] theorem setI_HALT (v : Word) : (s.setI v).HALT = s.HALT := rfl

/-! ### `setPc` -/

@[simp] theorem setPc_MEM (t : Word) : (s.setPc t).MEM = s.MEM := rfl
@[simp] theorem setPc_V (t : Word) : (s.setPc t).V = s.V := rfl
@[simp] theorem setPc_I (t : Word) : (s.setPc t).I = s.I := rfl
@[simp] theorem setPc_pc (t : Word) : (s.setPc t).pc = t := rfl
@[simp] theorem setPc_STACK (t : Word) : (s.setPc t).STACK = s.STACK := rfl
@[simp] theorem setPc_SP (t : Word) : (s.setPc t).SP = s.SP := rfl
@[simp] theorem setPc_DT (t : Word) : (s.setPc t).DT = s.DT := rfl
@[simp] theorem setPc_ST (t : Word) : (s.setPc t).ST = s.ST := rfl
@[simp] theorem setPc_KEY (t : Word) : (s.setPc t).KEY = s.KEY := rfl
@[simp] theorem setPc_DISP (t : Word) : (s.setPc t).DISP = s.DISP := rfl
@[simp] theorem setPc_HALT (t : Word) : (s.setPc t).HALT = s.HALT := rfl

/-! ### `advancePc` -/

@[simp] theorem advancePc_MEM : s.advancePc.MEM = s.MEM := rfl
@[simp] theorem advancePc_V : s.advancePc.V = s.V := rfl
@[simp] theorem advancePc_I : s.advancePc.I = s.I := rfl
@[simp] theorem advancePc_pc : s.advancePc.pc = s.pc + 2 := rfl
@[simp] theorem advancePc_STACK : s.advancePc.STACK = s.STACK := rfl
@[simp] theorem advancePc_SP : s.advancePc.SP = s.SP := rfl
@[simp] theorem advancePc_DT : s.advancePc.DT = s.DT := rfl
@[simp] theorem advancePc_ST : s.advancePc.ST = s.ST := rfl
@[simp] theorem advancePc_KEY : s.advancePc.KEY = s.KEY := rfl
@[simp] theorem advancePc_DISP : s.advancePc.DISP = s.DISP := rfl
@[simp] theorem advancePc_HALT : s.advancePc.HALT = s.HALT := rfl

/-! ### `setDisp` -/

@[simp] theorem setDisp_MEM (d : Display) : (s.setDisp d).MEM = s.MEM := rfl
@[simp] theorem setDisp_V (d : Display) : (s.setDisp d).V = s.V := rfl
@[simp] theorem setDisp_I (d : Display) : (s.setDisp d).I = s.I := rfl
@[simp] theorem setDisp_pc (d : Display) : (s.setDisp d).pc = s.pc := rfl
@[simp] theorem setDisp_STACK (d : Display) : (s.setDisp d).STACK = s.STACK := rfl
@[simp] theorem setDisp_SP (d : Display) : (s.setDisp d).SP = s.SP := rfl
@[simp] theorem setDisp_DT (d : Display) : (s.setDisp d).DT = s.DT := rfl
@[simp] theorem setDisp_ST (d : Display) : (s.setDisp d).ST = s.ST := rfl
@[simp] theorem setDisp_KEY (d : Display) : (s.setDisp d).KEY = s.KEY := rfl
@[simp] theorem setDisp_DISP (d : Display) : (s.setDisp d).DISP = d := rfl
@[simp] theorem setDisp_HALT (d : Display) : (s.setDisp d).HALT = s.HALT := rfl

/-! ### `setMem` -/

@[simp] theorem setMem_MEM (m : Memory) : (s.setMem m).MEM = m := rfl
@[simp] theorem setMem_V (m : Memory) : (s.setMem m).V = s.V := rfl
@[simp] theorem setMem_I (m : Memory) : (s.setMem m).I = s.I := rfl
@[simp] theorem setMem_pc (m : Memory) : (s.setMem m).pc = s.pc := rfl
@[simp] theorem setMem_STACK (m : Memory) : (s.setMem m).STACK = s.STACK := rfl
@[simp] theorem setMem_SP (m : Memory) : (s.setMem m).SP = s.SP := rfl
@[simp] theorem setMem_DT (m : Memory) : (s.setMem m).DT = s.DT := rfl
@[simp] theorem setMem_ST (m : Memory) : (s.setMem m).ST = s.ST := rfl
@[simp] theorem setMem_KEY (m : Memory) : (s.setMem m).KEY = s.KEY := rfl
@[simp] theorem setMem_DISP (m : Memory) : (s.setMem m).DISP = s.DISP := rfl
@[simp] theorem setMem_HALT (m : Memory) : (s.setMem m).HALT = s.HALT := rfl

/-! ### `setHalt` -/

@[simp] theorem setHalt_MEM (h : Halt) : (s.setHalt h).MEM = s.MEM := rfl
@[simp] theorem setHalt_V (h : Halt) : (s.setHalt h).V = s.V := rfl
@[simp] theorem setHalt_I (h : Halt) : (s.setHalt h).I = s.I := rfl
@[simp] theorem setHalt_pc (h : Halt) : (s.setHalt h).pc = s.pc := rfl
@[simp] theorem setHalt_STACK (h : Halt) : (s.setHalt h).STACK = s.STACK := rfl
@[simp] theorem setHalt_SP (h : Halt) : (s.setHalt h).SP = s.SP := rfl
@[simp] theorem setHalt_DT (h : Halt) : (s.setHalt h).DT = s.DT := rfl
@[simp] theorem setHalt_ST (h : Halt) : (s.setHalt h).ST = s.ST := rfl
@[simp] theorem setHalt_KEY (h : Halt) : (s.setHalt h).KEY = s.KEY := rfl
@[simp] theorem setHalt_DISP (h : Halt) : (s.setHalt h).DISP = s.DISP := rfl
@[simp] theorem setHalt_HALT (h : Halt) : (s.setHalt h).HALT = h := rfl

/-! ### `setTimers` -/

@[simp] theorem setTimers_MEM (dt st : Byte) : (s.setTimers dt st).MEM = s.MEM := rfl
@[simp] theorem setTimers_V (dt st : Byte) : (s.setTimers dt st).V = s.V := rfl
@[simp] theorem setTimers_I (dt st : Byte) : (s.setTimers dt st).I = s.I := rfl
@[simp] theorem setTimers_pc (dt st : Byte) : (s.setTimers dt st).pc = s.pc := rfl
@[simp] theorem setTimers_STACK (dt st : Byte) : (s.setTimers dt st).STACK = s.STACK := rfl
@[simp] theorem setTimers_SP (dt st : Byte) : (s.setTimers dt st).SP = s.SP := rfl
@[simp] theorem setTimers_DT (dt st : Byte) : (s.setTimers dt st).DT = dt := rfl
@[simp] theorem setTimers_ST (dt st : Byte) : (s.setTimers dt st).ST = st := rfl
@[simp] theorem setTimers_KEY (dt st : Byte) : (s.setTimers dt st).KEY = s.KEY := rfl
@[simp] theorem setTimers_DISP (dt st : Byte) : (s.setTimers dt st).DISP = s.DISP := rfl
@[simp] theorem setTimers_HALT (dt st : Byte) : (s.setTimers dt st).HALT = s.HALT := rfl

/-! ### `setKey` -/

@[simp] theorem setKey_MEM (k : Vector Bool 16) : (s.setKey k).MEM = s.MEM := rfl
@[simp] theorem setKey_V (k : Vector Bool 16) : (s.setKey k).V = s.V := rfl
@[simp] theorem setKey_I (k : Vector Bool 16) : (s.setKey k).I = s.I := rfl
@[simp] theorem setKey_pc (k : Vector Bool 16) : (s.setKey k).pc = s.pc := rfl
@[simp] theorem setKey_STACK (k : Vector Bool 16) : (s.setKey k).STACK = s.STACK := rfl
@[simp] theorem setKey_SP (k : Vector Bool 16) : (s.setKey k).SP = s.SP := rfl
@[simp] theorem setKey_DT (k : Vector Bool 16) : (s.setKey k).DT = s.DT := rfl
@[simp] theorem setKey_ST (k : Vector Bool 16) : (s.setKey k).ST = s.ST := rfl
@[simp] theorem setKey_KEY (k : Vector Bool 16) : (s.setKey k).KEY = k := rfl
@[simp] theorem setKey_DISP (k : Vector Bool 16) : (s.setKey k).DISP = s.DISP := rfl
@[simp] theorem setKey_HALT (k : Vector Bool 16) : (s.setKey k).HALT = s.HALT := rfl

/-! ### `setCollision` -/

@[simp] theorem setCollision_MEM (hit : Bool) : (s.setCollision hit).MEM = s.MEM := rfl
@[simp] theorem setCollision_V (hit : Bool) : (s.setCollision hit).V = s.V.set 15 (collisionFlag hit) := rfl
@[simp] theorem setCollision_I (hit : Bool) : (s.setCollision hit).I = s.I := rfl
@[simp] theorem setCollision_pc (hit : Bool) : (s.setCollision hit).pc = s.pc := rfl
@[simp] theorem setCollision_STACK (hit : Bool) : (s.setCollision hit).STACK = s.STACK := rfl
@[simp] theorem setCollision_SP (hit : Bool) : (s.setCollision hit).SP = s.SP := rfl
@[simp] theorem setCollision_DT (hit : Bool) : (s.setCollision hit).DT = s.DT := rfl
@[simp] theorem setCollision_ST (hit : Bool) : (s.setCollision hit).ST = s.ST := rfl
@[simp] theorem setCollision_KEY (hit : Bool) : (s.setCollision hit).KEY = s.KEY := rfl
@[simp] theorem setCollision_DISP (hit : Bool) : (s.setCollision hit).DISP = s.DISP := rfl
@[simp] theorem setCollision_HALT (hit : Bool) : (s.setCollision hit).HALT = s.HALT := rfl

/-! ### `raise` -/

@[simp] theorem raise_MEM (f : CoreFault) : (s.raise f).MEM = s.MEM := rfl
@[simp] theorem raise_V (f : CoreFault) : (s.raise f).V = s.V := rfl
@[simp] theorem raise_I (f : CoreFault) : (s.raise f).I = s.I := rfl
@[simp] theorem raise_pc (f : CoreFault) : (s.raise f).pc = s.pc := rfl
@[simp] theorem raise_STACK (f : CoreFault) : (s.raise f).STACK = s.STACK := rfl
@[simp] theorem raise_SP (f : CoreFault) : (s.raise f).SP = s.SP := rfl
@[simp] theorem raise_DT (f : CoreFault) : (s.raise f).DT = s.DT := rfl
@[simp] theorem raise_ST (f : CoreFault) : (s.raise f).ST = s.ST := rfl
@[simp] theorem raise_KEY (f : CoreFault) : (s.raise f).KEY = s.KEY := rfl
@[simp] theorem raise_DISP (f : CoreFault) : (s.raise f).DISP = s.DISP := rfl
@[simp] theorem raise_HALT (f : CoreFault) : (s.raise f).HALT = .halted f := rfl

/-! ### Registers read after an update -/

theorem getV_setV (x y : RegIx) (v : Byte) : (s.setV x v).getV y = if x = y then v else s.getV y := by
  simp only [getV, setV, Vector.getElem_set, Fin.ext_iff]

@[simp] theorem getV_setV_self (x : RegIx) (v : Byte) : (s.setV x v).getV x = v := by simp [getV_setV]

theorem getV_setV_of_ne {x y : RegIx} (h : x ≠ y) (v : Byte) : (s.setV x v).getV y = s.getV y := by
  simp [getV_setV, h]

@[simp] theorem getV_advancePc (x : RegIx) : s.advancePc.getV x = s.getV x := rfl

@[simp] theorem getV_setDisp (d : Display) (x : RegIx) : (s.setDisp d).getV x = s.getV x := rfl

@[simp] theorem getV_raise (f : CoreFault) (x : RegIx) : (s.raise f).getV x = s.getV x := rfl

@[simp] theorem getV_setCollision_flag (hit : Bool) : (s.setCollision hit).getV 15 = collisionFlag hit := by
  simp [setCollision]

theorem getV_setCollision_of_ne {x : RegIx} (h : x ≠ 15) (hit : Bool) : (s.setCollision hit).getV x = s.getV x := by
  simp [setCollision, getV_setV_of_ne s (Ne.symm h)]

end State

end Sys2Proof.Machine
end

