-- ==== Sys2Proof/Laws/Ops.lean ====
section
/-! SUPPORT. One lemma per shared operation that says once what it can do. -/

namespace Sys2Proof.Machine

open Sys2Proof.Config

/-! ### Reads and the fetch -/

theorem memRead1_cases (s : State) (a : Nat) :
    (0xFFF < a ∧ s.memRead1 a = .error a) ∨ (a ≤ 0xFFF ∧ s.memRead1 a = .ok (s.MEM.read a)) := by
  by_cases h : 0xFFF < a
  · exact .inl ⟨h, by simp [State.memRead1, h]⟩
  · exact .inr ⟨by omega, by simp [State.memRead1, h]⟩

/-- The fetch gives the big-endian word at `pc`, or the lowest address of its pair above 0xFFF. -/
theorem fetch_cases (s : State) :
    (s.pc.toNat ≤ 0xFFE ∧ s.fetch = .ok (wordOfBytes (s.MEM.read s.pc.toNat) (s.MEM.read (s.pc.toNat + 1)))) ∨
    (0xFFF ≤ s.pc.toNat ∧ s.fetch = .error (max s.pc.toNat 0x1000)) := by
  by_cases h : s.pc.toNat ≤ 0xFFE
  · exact .inl ⟨h, by simp only [State.fetch, State.memRead2, memLast]; rw [if_neg (by omega)]⟩
  · refine .inr ⟨by omega, ?_⟩
    simp only [State.fetch, State.memRead2, memLast]
    rw [if_pos (by omega)]
    congr 1
    split <;> omega

theorem fetch_ok_pc {s : State} {w : Word} (h : s.fetch = .ok w) : s.pc.toNat ≤ 0xFFE := by
  obtain ⟨hp, -⟩ | ⟨-, he⟩ := fetch_cases s
  · exact hp
  · rw [he] at h; cases h

/-- The fetch reads `MEM` and `pc` alone. -/
theorem fetch_congr {s t : State} (hm : t.MEM = s.MEM) (hp : t.pc = s.pc) : t.fetch = s.fetch := by
  simp [State.fetch, State.memRead2, hm, hp]

/-! ### Operands -/

@[simp] theorem zext16_toNat (nnn : Addr12) : (zext16 nnn).toNat = nnn.toNat := by
  have := nnn.isLt
  simp only [zext16, BitVec.toNat_setWidth]
  omega

/-- The sum reduced modulo 256 is the sum of bytes that wraps. -/
theorem addMod256_eq (a b : Byte) : addMod256 a b = a + b := by
  apply BitVec.eq_of_toNat_eq
  simp [addMod256, BitVec.toNat_add]

@[simp] theorem addMod256_toNat (a b : Byte) : (addMod256 a b).toNat = (a.toNat + b.toNat) % 256 := by
  simp [addMod256]

@[simp] theorem startX_val (s : State) (x : RegIx) : (s.startX x).val = (s.getV x).toNat % 64 := rfl

@[simp] theorem startY_val (s : State) (y : RegIx) : (s.startY y).val = (s.getV y).toNat % 32 := rfl

/-- The sprite check fails exactly when a byte of the `n` rows lies above 0xFFF, and gives the lowest such address. -/
theorem spriteFault_cases (s : State) (n : Rows) :
    (s.spriteFault n = none ∧ (n.val = 0 ∨ s.I.toNat + (n.val - 1) ≤ 0xFFF)) ∨
    (s.spriteFault n = some (max s.I.toNat 0x1000) ∧ 1 ≤ n.val ∧ 0xFFF < s.I.toNat + (n.val - 1)) := by
  unfold State.spriteFault memLast
  split
  · next h => exact .inr ⟨rfl, h.1, h.2⟩
  · next h => exact .inl ⟨rfl, by omega⟩

/-- The sprite check reads `I` alone. -/
theorem spriteFault_congr {s t : State} (h : t.I = s.I) (n : Rows) : t.spriteFault n = s.spriteFault n := by
  simp [State.spriteFault, h]

/-! ### The display -/

/-- A cell read after a cell is written. -/
theorem Display.get_put (d : Display) (c c' : Col) (r r' : Row) (b : Bool) :
    (d.put c r b).get c' r' = if c = c' ∧ r = r' then b else d.get c' r' := by
  by_cases hr : r = r'
  · subst hr
    by_cases hc : c = c'
    · subst hc; simp [Display.get, Display.put]
    · have : c.val ≠ c'.val := fun h => hc (Fin.ext h)
      simp [Display.get, Display.put, hc, Vector.getElem_set_ne, this]
  · have : r.val ≠ r'.val := fun h => hr (Fin.ext h)
    simp [Display.get, Display.put, hr, Vector.getElem_set_ne, this]

@[simp] theorem Display.get_clear (c : Col) (r : Row) : Display.clear.get c r = false := by
  simp [Display.get, Display.clear]

/-- Two displays with the same cells are the same. -/
theorem Display.ext_get {d e : Display} (h : ∀ c r, d.get c r = e.get c r) : d = e := by
  apply Vector.ext
  intro r hr
  apply Vector.ext
  intro c hc
  exact h ⟨c, hc⟩ ⟨r, hr⟩

/-! ### Placing a word -/

theorem fetchAddr_le (s : State) : s.fetchAddr ≤ 0xFFE := by
  simp only [State.fetchAddr, memLast, progBase]
  split <;> omega

theorem placeWord_pc_toNat (s : State) (w : Word) : (s.placeWord w).pc.toNat = s.fetchAddr := by
  have := fetchAddr_le s
  simp only [State.placeWord, BitVec.toNat_ofNat]
  omega

/-- The bytes of a word make the word again. -/
@[simp] theorem wordOfBytes_wordBytes (w : Word) : wordOfBytes (w.extractLsb' 8 8) (w.extractLsb' 0 8) = w := by
  apply BitVec.eq_of_toNat_eq
  have := w.isLt
  simp only [wordOfBytes, BitVec.toNat_append, BitVec.extractLsb'_toNat, Nat.shiftRight_zero]
  rw [← Nat.shiftLeft_add_eq_or_of_lt (by omega), Nat.shiftLeft_eq, Nat.shiftRight_eq_div_pow]
  omega

/-- The next fetch after a word is placed gives that word. -/
theorem fetch_placeWord {s : State} (h : s.MEM.wf = true) (w : Word) : (s.placeWord w).fetch = .ok w := by
  have hle := fetchAddr_le s
  obtain ⟨-, hf⟩ | ⟨hp, -⟩ := fetch_cases (s.placeWord w)
  · rw [hf, placeWord_pc_toNat]
    have hm : (s.placeWord w).MEM = s.MEM.writeBytes s.fetchAddr (wordBytes w) := rfl
    have h0 := Memory.read_writeBytes_inside (a := s.fetchAddr) (bs := wordBytes w) h (by simp [wordBytes]; omega) 0
      (by simp [wordBytes])
    have h1 := Memory.read_writeBytes_inside (a := s.fetchAddr) (bs := wordBytes w) h (by simp [wordBytes]; omega) 1
      (by simp [wordBytes])
    rw [Nat.add_zero] at h0
    rw [hm, h0, h1]
    simp [wordBytes]
  · rw [placeWord_pc_toNat] at hp
    omega

end Sys2Proof.Machine
end

