-- ==== Sys2Proof/Laws/Blit.lean ====
section
/-! SUPPORT. The loops of the sprite blit, said cell by cell (spec 43_display.md R137, R140): after `m` bits or rows a
cell has been flipped exactly when one of them maps a set sprite bit onto it. -/

namespace Sys2Proof.Machine

theorem Blit.plot_get (p : Blit) (c c' : Col) (r r' : Row) :
    (p.plot c r).disp.get c' r' = if c = c' ∧ r = r' then !p.disp.get c' r' else p.disp.get c' r' := by
  unfold Blit.plot
  split <;> rename_i h <;> rw [Display.get_put] <;> split <;> rename_i h2 <;> try rfl
  · obtain ⟨rfl, rfl⟩ := h2; simp [h]
  · obtain ⟨rfl, rfl⟩ := h2; simp [h]

theorem Blit.plot_hit (p : Blit) (c : Col) (r : Row) : (p.plot c r).hit = (p.hit || p.disp.get c r) := by
  unfold Blit.plot
  split <;> rename_i h <;> simp [h]

/-- Eight consecutive sprite bits go to eight distinct columns (R140). -/
theorem spriteCol_inj {sx : Col} {j k : Nat} (hj : j < 64) (hk : k < 64) (h : spriteCol sx j = spriteCol sx k) :
    j = k := by
  have h' : (sx.val + j) % 64 = (sx.val + k) % 64 := congrArg Fin.val h
  omega

/-- A set bit among the first `m` of `b` lands on column `c`. -/
def rowCovers (sx : Col) (b : Byte) (m : Nat) (c : Col) : Prop :=
  ∃ k, k < m ∧ b.getLsbD (7 - k) = true ∧ spriteCol sx k = c

theorem rowCovers_succ (sx : Col) (b : Byte) (m : Nat) (c : Col) :
    rowCovers sx b (m + 1) c ↔ rowCovers sx b m c ∨ (b.getLsbD (7 - m) = true ∧ spriteCol sx m = c) := by
  constructor
  · rintro ⟨k, hk, hb, hc⟩
    by_cases hkm : k = m
    · subst hkm; exact .inr ⟨hb, hc⟩
    · exact .inl ⟨k, by omega, hb, hc⟩
  · rintro (⟨k, hk, h⟩ | h)
    · exact ⟨k, by omega, h⟩
    · exact ⟨m, by omega, h⟩

/-- The first `m` bits of a row: covered cells of that display row are flipped, all others are as they were, and a
collision is an old one or a covered cell that was set. -/
theorem Blit.bits_spec (sx : Col) (r : Row) (b : Byte) (p : Blit) (m : Nat) (hm : m ≤ 64) :
    (∀ c r', (rowCovers sx b m c ∧ r = r' →
        ((List.range m).foldl (Blit.bit sx r b) p).disp.get c r' = !p.disp.get c r') ∧
      (¬ (rowCovers sx b m c ∧ r = r') →
        ((List.range m).foldl (Blit.bit sx r b) p).disp.get c r' = p.disp.get c r')) ∧
    (((List.range m).foldl (Blit.bit sx r b) p).hit = true ↔
      p.hit = true ∨ ∃ c, rowCovers sx b m c ∧ p.disp.get c r = true) := by
  induction m with
  | zero => simp [rowCovers]
  | succ m ih =>
    obtain ⟨ihd, ihh⟩ := ih (by omega)
    simp only [List.range_succ, List.foldl_append, List.foldl_cons, List.foldl_nil, rowCovers_succ]
    generalize (List.range m).foldl (Blit.bit sx r b) p = q at ihd ihh ⊢
    have hnew : ¬ rowCovers sx b m (spriteCol sx m) := by
      rintro ⟨k, hk, -, hc⟩
      have := spriteCol_inj (by omega) (by omega) hc
      omega
    by_cases hb : b.getLsbD (7 - m) = true
    · simp only [Blit.bit, hb, if_true, Blit.plot_get, Blit.plot_hit, true_and, Bool.or_eq_true]
      constructor
      · intro c r'
        obtain ⟨h1, h2⟩ := ihd c r'
        by_cases hc : spriteCol sx m = c
        · subst hc
          have h2' := h2 (fun h => hnew h.1)
          by_cases hr : r = r'
          · simp [hr, h2']
          · simp [hr, h2']
        · simp only [hc, or_false, false_and, if_false]
          exact ⟨h1, h2⟩
      · rw [ihh, (ihd (spriteCol sx m) r).2 (fun h => hnew h.1)]
        constructor
        · rintro ((h | ⟨c, hc, hd⟩) | h)
          · exact .inl h
          · exact .inr ⟨c, .inl hc, hd⟩
          · exact .inr ⟨_, .inr rfl, h⟩
        · rintro (h | ⟨c, hc | hc, hd⟩)
          · exact .inl (.inl h)
          · exact .inl (.inr ⟨c, hc, hd⟩)
          · exact .inr (hc ▸ hd)
    · simp only [Blit.bit, hb, Bool.false_eq_true, if_false, false_and, or_false]
      exact ⟨ihd, ihh⟩

/-- A set sprite bit of the first `m` rows lands on the cell `(c, r)`. -/
def spriteCovers (s : State) (sx : Col) (sy : Row) (m : Nat) (c : Col) (r : Row) : Prop :=
  ∃ k, k < m ∧ r.val = sy.val + k ∧ rowCovers sx (s.MEM.read (s.spriteAddr k)) 8 c

theorem spriteCovers_succ (s : State) (sx : Col) (sy : Row) (m : Nat) (c : Col) (r : Row) :
    spriteCovers s sx sy (m + 1) c r ↔
      spriteCovers s sx sy m c r ∨ (r.val = sy.val + m ∧ rowCovers sx (s.MEM.read (s.spriteAddr m)) 8 c) := by
  constructor
  · rintro ⟨k, hk, hr, hc⟩
    by_cases hkm : k = m
    · subst hkm; exact .inr ⟨hr, hc⟩
    · exact .inl ⟨k, by omega, hr, hc⟩
  · rintro (⟨k, hk, h⟩ | h)
    · exact ⟨k, by omega, h⟩
    · exact ⟨m, by omega, h⟩

/-- The first `m` rows of a sprite: covered cells are flipped, all others are as they were, and there is a collision
exactly when a covered cell was set (R137). -/
theorem blit_spec (s : State) (sx : Col) (sy : Row) (m : Nat) :
    (∀ c r, (spriteCovers s sx sy m c r → (s.blit sx sy m).disp.get c r = !s.DISP.get c r) ∧
      (¬ spriteCovers s sx sy m c r → (s.blit sx sy m).disp.get c r = s.DISP.get c r)) ∧
    ((s.blit sx sy m).hit = true ↔ ∃ c r, spriteCovers s sx sy m c r ∧ s.DISP.get c r = true) := by
  unfold State.blit
  induction m with
  | zero => simp [spriteCovers]
  | succ m ih =>
    obtain ⟨ihd, ihh⟩ := ih
    simp only [List.range_succ, List.foldl_append, List.foldl_cons, List.foldl_nil, spriteCovers_succ]
    generalize (List.range m).foldl (Blit.row s sx sy) ⟨s.DISP, false⟩ = q at ihd ihh ⊢
    unfold Blit.row
    split
    · next hle =>
      obtain ⟨bd, bh⟩ := Blit.bits_spec sx ⟨sy.val + m, by omega⟩ (s.MEM.read (s.spriteAddr m)) q 8 (by omega)
      unfold Blit.byte
      generalize (List.range 8).foldl (Blit.bit sx ⟨sy.val + m, by omega⟩ (s.MEM.read (s.spriteAddr m))) q = q'
        at bd bh ⊢
      have hrow : ∀ r : Row, (⟨sy.val + m, by omega⟩ : Row) = r ↔ r.val = sy.val + m := fun r => by
        rw [Fin.ext_iff]; exact eq_comm
      have hfresh : ∀ c (r : Row), r.val = sy.val + m → ¬ spriteCovers s sx sy m c r := by
        rintro c r hr ⟨k, hk, hk', -⟩
        omega
      constructor
      · intro c r
        obtain ⟨h1, h2⟩ := bd c r
        obtain ⟨i1, i2⟩ := ihd c r
        rw [hrow] at h1 h2
        by_cases hr : r.val = sy.val + m
        · have hq := i2 (hfresh c r hr)
          simp only [hfresh c r hr, hr, false_or, true_and, and_true, ← hq] at h1 h2 ⊢
          exact ⟨h1, h2⟩
        · rw [h2 (fun h => hr h.2)]
          simp only [hr, false_and, or_false]
          exact ⟨i1, i2⟩
      · rw [bh, ihh]
        constructor
        · rintro (⟨c, r, hc, hd⟩ | ⟨c, hc, hd⟩)
          · exact ⟨c, r, .inl hc, hd⟩
          · refine ⟨c, ⟨sy.val + m, by omega⟩, .inr ⟨rfl, hc⟩, ?_⟩
            rw [← (ihd c ⟨sy.val + m, by omega⟩).2 (hfresh _ _ rfl)]
            exact hd
        · rintro ⟨c, r, hc | ⟨hr, hc⟩, hd⟩
          · exact .inl ⟨c, r, hc, hd⟩
          · refine .inr ⟨c, hc, ?_⟩
            have hr' : r = ⟨sy.val + m, by omega⟩ := Fin.ext hr
            rw [hr'] at hd
            rw [(ihd c _).2 (hfresh _ _ rfl)]
            exact hd
    · next hgt =>
      have hno : ∀ r : Row, ¬ r.val = sy.val + m := fun r h => by have := r.isLt; omega
      simp only [hno, false_and, or_false]
      exact ⟨ihd, ihh⟩

/-- The blit reads `MEM`, `I` and `DISP` alone. -/
theorem blit_congr {s t : State} (hm : t.MEM = s.MEM) (hi : t.I = s.I) (hd : t.DISP = s.DISP) (sx : Col) (sy : Row)
    (n : Nat) : t.blit sx sy n = s.blit sx sy n := by
  have hrow : Blit.row t sx sy = Blit.row s sx sy := by
    funext p k
    simp [Blit.row, State.spriteAddr, hm, hi]
  simp [State.blit, hrow, hd]

end Sys2Proof.Machine
end

