-- ==== Sys2Proof/Laws/Decode.lean ====
section
/-! SUPPORT. The decoder and the formats said over the numeric value of a word: which row hits, by the top nibble (spec
30_encoding.md R80, R81), and what number each format makes (R76). -/

namespace Sys2Proof

/-! ### Formats as numbers -/

theorem append_toNat_4_12 (a : BitVec 4) (b : BitVec 12) :
    (a ++ b : BitVec (4 + 12)).toNat = a.toNat * 4096 + b.toNat := by
  have := b.isLt
  rw [BitVec.toNat_append, ← Nat.shiftLeft_add_eq_or_of_lt (by omega), Nat.shiftLeft_eq]

theorem append_toNat_4_8 (a : BitVec 4) (b : BitVec 8) :
    (a ++ b : BitVec (4 + 8)).toNat = a.toNat * 256 + b.toNat := by
  have := b.isLt
  rw [BitVec.toNat_append, ← Nat.shiftLeft_add_eq_or_of_lt (by omega), Nat.shiftLeft_eq]

theorem append_toNat_4_4 (a b : BitVec 4) : (a ++ b : BitVec (4 + 4)).toNat = a.toNat * 16 + b.toNat := by
  have := b.isLt
  rw [BitVec.toNat_append, ← Nat.shiftLeft_add_eq_or_of_lt (by omega), Nat.shiftLeft_eq]

theorem wordOfBytes_toNat (hi lo : Byte) : (wordOfBytes hi lo).toNat = hi.toNat * 256 + lo.toNat := by
  have := lo.isLt
  unfold wordOfBytes
  rw [BitVec.toNat_append, ← Nat.shiftLeft_add_eq_or_of_lt (by omega), Nat.shiftLeft_eq]

/-- The two bytes of a word, from its value as a number. -/
theorem wordBytes_eq {w : Word} {hi lo : Nat} (hhi : w.toNat / 256 = hi % 256) (hlo : w.toNat % 256 = lo % 256) :
    wordBytes w = [BitVec.ofNat 8 hi, BitVec.ofNat 8 lo] := by
  have e1 : w.extractLsb' 8 8 = BitVec.ofNat 8 hi := by
    apply BitVec.eq_of_toNat_eq
    simp [BitVec.extractLsb', Nat.shiftRight_eq_div_pow]
    omega
  have e2 : w.extractLsb' 0 8 = BitVec.ofNat 8 lo := by
    apply BitVec.eq_of_toNat_eq
    simp [BitVec.extractLsb']
    omega
  rw [wordBytes, e1, e2]

theorem formatNNN_toNat (op : BitVec 4) (nnn : Addr12) : (formatNNN op nnn).toNat = op.toNat * 4096 + nnn.toNat :=
  append_toNat_4_12 op nnn

theorem formatXNN_toNat (op : BitVec 4) (x : RegIx) (nn : Byte) :
    (formatXNN op x nn).toNat = op.toNat * 4096 + (x.val * 256 + nn.toNat) :=
  (append_toNat_4_12 op _).trans (congrArg _ (append_toNat_4_8 _ nn))

theorem formatXYN_toNat (op : BitVec 4) (x y : RegIx) (n : Rows) :
    (formatXYN op x y n).toNat = op.toNat * 4096 + (x.val * 256 + (y.val * 16 + n.val)) :=
  (append_toNat_4_12 op _).trans (congrArg _ ((append_toNat_4_8 _ _).trans (congrArg _ (append_toNat_4_4 _ _))))

/-! ### Rows of the opcode map -/

/-- Masking with 0xF000 leaves the top nibble alone. -/
theorem and_F000_toNat (w : Word) : (w &&& 0xF000).toNat = w.toNat / 4096 * 4096 := by
  have hw : w = (w.extractLsb' 12 4 ++ w.extractLsb' 0 12 : BitVec (4 + 12)) := by
    apply BitVec.eq_of_toNat_eq
    have := w.isLt
    rw [append_toNat_4_12]
    simp only [BitVec.extractLsb'_toNat, Nat.shiftRight_eq_div_pow]
    omega
  have hm : (0xF000 : Word) = (BitVec.allOnes 4 ++ 0#12 : BitVec (4 + 12)) := by decide
  have : w &&& 0xF000 = (w.extractLsb' 12 4 ++ 0#12 : BitVec (4 + 12)) := by
    conv_lhs => rw [hw, hm]
    rw [BitVec.and_append, BitVec.and_allOnes, BitVec.and_zero]
  rw [this, append_toNat_4_12]
  have := w.isLt
  simp only [BitVec.extractLsb'_toNat, Nat.shiftRight_eq_div_pow]
  simp
  omega

/-- A row that masks the top nibble hits exactly the words of its class. -/
theorem hits_class_iff {r : OpcodeRow} {k : Nat} (hm : r.mask = 0xF000) (hp : r.pattern.toNat = k * 4096) (w : Word) :
    r.hits w = true ↔ w.toNat / 4096 = k := by
  rw [OpcodeRow.hits, hm, beq_iff_eq, ← BitVec.toNat_inj, and_F000_toNat, hp]
  omega

theorem rowCls_hits_iff (w : Word) : rowCls.hits w = true ↔ w = 0x00E0 := by
  have h : rowCls.mask = BitVec.allOnes 16 := by decide
  rw [OpcodeRow.hits, h, BitVec.and_allOnes, beq_iff_eq]
  rfl

theorem rowJp_hits_iff (w : Word) : rowJp.hits w = true ↔ w.toNat / 4096 = 0x1 := hits_class_iff rfl rfl w

theorem rowLdImm_hits_iff (w : Word) : rowLdImm.hits w = true ↔ w.toNat / 4096 = 0x6 := hits_class_iff rfl rfl w

theorem rowAddImm_hits_iff (w : Word) : rowAddImm.hits w = true ↔ w.toNat / 4096 = 0x7 := hits_class_iff rfl rfl w

theorem rowLdI_hits_iff (w : Word) : rowLdI.hits w = true ↔ w.toNat / 4096 = 0xA := hits_class_iff rfl rfl w

theorem rowDrw_hits_iff (w : Word) : rowDrw.hits w = true ↔ w.toNat / 4096 = 0xD := hits_class_iff rfl rfl w

end Sys2Proof
end

