-- ==== Sys2Proof/Laws/Step.lean ====
section
/-! SUPPORT. What a step can do, said once: the inversion of `step` and of each meaning. -/

namespace Sys2Proof.Machine

open Sys2Proof.Config

/-- A draw faults with nothing else changed, or draws the blitted display and writes VF. -/
theorem execDrw_cases (x y : RegIx) (n : Rows) (s : State) :
    (∃ b, s.spriteFault n = some b ∧ execDrw x y n s = .next (s.raise (.outOfBounds b))) ∨
    (s.spriteFault n = none ∧ execDrw x y n s =
      .next ((s.advancePc.setDisp (s.blit (s.startX x) (s.startY y) n.val).disp).setCollision
        (s.blit (s.startX x) (s.startY y) n.val).hit)) := by
  unfold execDrw
  cases h : s.spriteFault n with
  | some b => exact .inl ⟨b, rfl, rfl⟩
  | none => exact .inr ⟨rfl, rfl⟩

/-- Every instruction answers a next state, whatever the state. -/
theorem exec_answers_next (i : Instr) (s : State) : ∃ t, exec i s = .next t := by
  cases i with
  | cls => exact ⟨_, rfl⟩
  | jp nnn => exact ⟨_, rfl⟩
  | ldImm x nn => exact ⟨_, rfl⟩
  | addImm x nn => exact ⟨_, rfl⟩
  | ldI nnn => exact ⟨_, rfl⟩
  | drw x y n =>
    obtain ⟨b, -, h⟩ | ⟨-, h⟩ := execDrw_cases x y n s
    · exact ⟨_, h⟩
    · exact ⟨_, h⟩

/-- The three ways a running core steps (R160): its fetch faults, its word is unrecognized, or it runs an instruction. -/
theorem step_cases {s : State} (h : s.HALT = .running) :
    (∃ b, s.fetch = .error b ∧ step s = .next (s.raise (.outOfBounds b))) ∨
    (∃ w e, s.fetch = .ok w ∧ decode w = .error e ∧ step s = .next (s.raise (.unrecognizedInstruction s.pc w))) ∨
    (∃ w i, s.fetch = .ok w ∧ decode w = .ok i ∧ step s = exec i s) := by
  unfold step cycle
  rw [h]
  cases hf : s.fetch with
  | error b => exact .inl ⟨b, rfl, rfl⟩
  | ok w =>
    cases hd : decode w with
    | error e => exact .inr (.inl ⟨w, e, rfl, hd, by simp [hd]⟩)
    | ok i => exact .inr (.inr ⟨w, i, rfl, hd, by simp [hd]⟩)

/-- A halted core has no next state. -/
theorem step_of_halted {s : State} {f : CoreFault} (h : s.HALT = .halted f) : step s = .fault (.coreHalted f) := by
  unfold step cycle
  rw [h]

/-- A step that answers a next state started from a running core. -/
theorem running_of_step_next {s t : State} (h : step s = .next t) : s.HALT = .running := by
  cases hh : s.HALT with
  | running => rfl
  | halted f => rw [step_of_halted hh] at h; cases h

/-- What the decoder rejects it rejects with the word itself. -/
theorem decode_error {w : Word} {e : DecodeError} (h : decode w = .error e) : e = .unrecognized w := by
  unfold decode at h
  simp only at h
  split at h
  · cases h
  split at h
  · cases h
  split at h
  · cases h
  split at h
  · cases h
  split at h
  · cases h
  split at h
  · cases h
  · cases h; rfl

end Sys2Proof.Machine
end

