-- ==== Sys2Proof/Laws/Host.lean ====
section
/-! SUPPORT. What an event can do, said once: the inversion of `System.apply` (spec 60_exceptions.md R175), and the small
lemmas of the timers and the boot operations. -/

namespace Sys2Proof.Machine

open Sys2Proof.Config

/-- A timer counted down, as a number: Nat subtraction stops at 0 (R170). -/
theorem countDown_toNat (t : Byte) : (countDown t).toNat = t.toNat - 1 := by
  have := t.isLt
  unfold countDown
  split
  · rw [BitVec.toNat_sub]
    simp
    omega
  · omega

/-- A step event that is enabled is a step that answers a next state. -/
theorem stepEvent_some {c : State} {z : System} (h : System.stepEvent c = some z) :
    ∃ t, step c = .next t ∧ z = ⟨.executing, t⟩ := by
  unfold System.stepEvent at h
  cases hs : step c with
  | next t => rw [hs] at h; cases h; exact ⟨t, rfl, rfl⟩
  | fault f => rw [hs] at h; cases h
  | refused f => rw [hs] at h; cases h

/-- A load event that is enabled is at 0x200: it boots the core, or leaves it as it was, dead. -/
theorem loadEvent_some {src : RomSource} {offset : Nat} {c : State} {z : System}
    (h : System.loadEvent src offset c = some z) :
    offset = 0x200 ∧ ((∃ rom, rom.length ≤ 3584 ∧ z = ⟨.executing, c.setMem (c.MEM.writeBytes 0x200 rom)⟩) ∨
      ∃ e, z = ⟨.dead e, c⟩) := by
  unfold System.loadEvent at h
  split at h
  · next ho =>
    subst ho
    refine ⟨rfl, ?_⟩
    unfold State.load at h
    cases src with
    | unreadable => cases h; exact .inr ⟨_, rfl⟩
    | bytes rom =>
      simp only at h
      split at h
      · next s' hs =>
        split at hs
        · cases hs
        · next hlen =>
          cases hs
          cases h
          exact .inl ⟨rom, by simp at hlen; omega, rfl⟩
      · cases h
        exact .inr ⟨_, rfl⟩
  · cases h

/-- The six ways an event is enabled, and what each leaves. -/
theorem apply_cases {font : FontParam} {e : Event} {y z : System} (h : y.apply font e = some z) :
    (e = .reset ∧ z = ⟨.created, State.zeroed⟩) ∨
    (e = .initializeFont ∧ y.phase = .created ∧ z = ⟨.fontReady, y.core.initializeFont font⟩) ∨
    (y.phase = .fontReady ∧ ∃ src off, e = .load src off ∧ System.loadEvent src off y.core = some z) ∨
    (e = .step ∧ y.phase = .executing ∧ System.stepEvent y.core = some z) ∨
    (e = .tick ∧ y.phase = .executing ∧ z = ⟨.executing, y.core.tick⟩) ∨
    (∃ k, e = .setKeys k ∧ y.phase = .executing ∧ z = ⟨.executing, y.core.setKeys k⟩) := by
  obtain ⟨p, c⟩ := y
  cases e <;> cases p <;> simp [System.apply] at h ⊢ <;>
    first | exact h | exact h.symm

/-- What the latch records depends on memory, `pc`, `I` and the latch alone. -/
theorem haltRecordOk_congr {s t : State} (hm : t.MEM = s.MEM) (hp : t.pc = s.pc) (hi : t.I = s.I)
    (hh : t.HALT = s.HALT) (h : s.haltRecordOk) : t.haltRecordOk := by
  have hf : t.fetch = s.fetch := fetch_congr hm hp
  unfold State.haltRecordOk at h ⊢
  rw [hh]
  simp only [hf, hp, spriteFault_congr hi]
  exact h

end Sys2Proof.Machine
end

