-- ==== Sys2Proof/Laws/PerInstr.lean ====
section
/-! SUPPORT. Statements made per instruction, one lemma per constructor of `Instr` (LAWS.json lists the families). -/

namespace Sys2Proof.Laws

/-! ### Every instruction is well formed: its operand types are the widths of its fields (R78). -/

namespace OperandsInRange

def Statement (i : Instr) : Prop := i.wellFormed = true

theorem cls : Statement .cls := rfl

theorem jp (nnn : Addr12) : Statement (.jp nnn) := by
  have := nnn.isLt; simp only [Statement, Instr.wellFormed, decide_eq_true_eq]; omega

theorem ldImm (x : RegIx) (nn : Byte) : Statement (.ldImm x nn) := by
  have := nn.isLt; have := x.isLt
  simp only [Statement, Instr.wellFormed, Bool.and_eq_true, decide_eq_true_eq]; omega

theorem addImm (x : RegIx) (nn : Byte) : Statement (.addImm x nn) := by
  have := nn.isLt; have := x.isLt
  simp only [Statement, Instr.wellFormed, Bool.and_eq_true, decide_eq_true_eq]; omega

theorem ldI (nnn : Addr12) : Statement (.ldI nnn) := by
  have := nnn.isLt; simp only [Statement, Instr.wellFormed, decide_eq_true_eq]; omega

theorem drw (x y : RegIx) (n : Rows) : Statement (.drw x y n) := by
  have := x.isLt; have := y.isLt; have := n.isLt
  simp only [Statement, Instr.wellFormed, Bool.and_eq_true, decide_eq_true_eq]; omega

end OperandsInRange

/-! ### The word of every instruction is matched by its own row of the opcode map (R80). -/

namespace WordHitsOwnRow

def Statement (i : Instr) : Prop := i.row.hits (encode i) = true

theorem cls : Statement .cls := (rowCls_hits_iff _).mpr rfl

theorem jp (nnn : Addr12) : Statement (.jp nnn) := by
  have := nnn.isLt
  rw [Statement, Instr.row, rowJp_hits_iff, encode, formatNNN_toNat]; simp; omega

theorem ldImm (x : RegIx) (nn : Byte) : Statement (.ldImm x nn) := by
  have := nn.isLt; have := x.isLt
  rw [Statement, Instr.row, rowLdImm_hits_iff, encode, formatXNN_toNat]; simp; omega

theorem addImm (x : RegIx) (nn : Byte) : Statement (.addImm x nn) := by
  have := nn.isLt; have := x.isLt
  rw [Statement, Instr.row, rowAddImm_hits_iff, encode, formatXNN_toNat]; simp; omega

theorem ldI (nnn : Addr12) : Statement (.ldI nnn) := by
  have := nnn.isLt
  rw [Statement, Instr.row, rowLdI_hits_iff, encode, formatNNN_toNat]; simp; omega

theorem drw (x y : RegIx) (n : Rows) : Statement (.drw x y n) := by
  have := x.isLt; have := y.isLt; have := n.isLt
  rw [Statement, Instr.row, rowDrw_hits_iff, encode, formatXYN_toNat]; simp; omega

end WordHitsOwnRow

end Sys2Proof.Laws
end

