-- ==== Sys2Proof/Tests/Slice0.lean ====
section
/-! SUPPORT. The model's own tests, from the vectors of spec 95_test_vectors.md (named in each comment), the smoke test of
the well-formedness checks, and for each statement with hypotheses a witness that meets them all. -/

namespace Sys2Proof.Tests

open Sys2Proof.Machine

/-! ### Helpers -/

/-- The next state of an outcome. -/
def after (o : Host.Outcome State Fault Refusal) : Option State :=
  match o with
  | .next s => some s
  | .fault _ => none
  | .refused _ => none

/-- A running core with a word at `pc`. -/
def withWord (s : State) (pc w : Word) : State := State.placeWord { s with pc := pc } w

/-- The reset state with some registers set. -/
def regs (l : List (RegIx × Byte)) (s : State) : State := l.foldl (fun t p => t.setV p.1 p.2) s

/-- The reset state with `I` at glyph 0 and a display of the given cells. -/
def canvas (cells : List (Col × Row)) : State :=
  { State.reset with I := 0x050, DISP := cells.foldl (fun d p => d.put p.1 p.2 true) Display.clear }

/-- The set cells of one display row among some columns. -/
def setCells (d : Display) (r : Row) (cols : List Col) : List Col := cols.filter fun c => d.get c r

/-! ### Well-formedness: each check refuses a term just out of its range (R86) -/

theorem test_wf_jp : (AsmItem.jp 0x1000).wellFormed = false := by decide
theorem test_wf_ldImm_x : (AsmItem.ldImm 16 0).wellFormed = false := by decide
theorem test_wf_ldImm_nn : (AsmItem.ldImm 0 256).wellFormed = false := by decide
theorem test_wf_addImm_x : (AsmItem.addImm 16 0).wellFormed = false := by decide
theorem test_wf_addImm_nn : (AsmItem.addImm 0 256).wellFormed = false := by decide
theorem test_wf_ldI : (AsmItem.ldI 0x1000).wellFormed = false := by decide
theorem test_wf_drw_x : (AsmItem.drw 16 0 0).wellFormed = false := by decide
theorem test_wf_drw_y : (AsmItem.drw 0 16 0).wellFormed = false := by decide
theorem test_wf_drw_n : (AsmItem.drw 0 0 16).wellFormed = false := by decide
theorem test_wf_dw : (AsmItem.dw 0x10000).wellFormed = false := by decide
theorem test_wf_db : (AsmItem.db 256).wellFormed = false := by decide
theorem test_wf_accepts : [AsmItem.cls, .jp 0xFFF, .ldImm 15 255, .addImm 15 255, .ldI 0xFFF, .drw 15 15 15, .dw 0xFFFF,
    .db 255].all AsmItem.wellFormed = true := by decide

/-! ### Decoding: words written out bit by bit from the formats of R76 -/

-- T-E1: LIT 0000 0000 1110 0000
theorem test_decode_cls : decode 0b0000000011100000 = .ok .cls := by decide
-- NNN: op 0001, nnn 1010 1011 1100 (R115's example)
theorem test_decode_jp : decode 0b0001101010111100 = .ok (.jp 0xABC) := by decide
-- T-E4, XNN: op 0110, x 1010, nn 0001 0010
theorem test_decode_ldImm : decode 0b0110101000010010 = .ok (.ldImm 10 0x12) := by decide
-- T-E5, XNN: op 0111, x 1111, nn 0000 0001
theorem test_decode_addImm : decode 0b0111111100000001 = .ok (.addImm 15 0x01) := by decide
-- T-E6, NNN: op 1010, nnn 0000 0101 0000
theorem test_decode_ldI : decode 0b1010000001010000 = .ok (.ldI 0x050) := by decide
-- XYN: op 1101, x 1010, y 1011, n 0101
theorem test_decode_drw : decode 0b1101101010110101 = .ok (.drw 10 11 5) := by decide
-- T-E9 to T-E18: unrecognized words
theorem test_decode_unrecognized :
    [0x0000, 0x00EE, 0x00E1, 0x01E0, 0x0FE0, 0x2200, 0x3000, 0x4000, 0x5000, 0x8124, 0x9000, 0xB000, 0xC0FF, 0xE09E,
      0xF00A, 0xF107, 0xFFFF].all (fun w => decide (decode w = .error (.unrecognized w))) = true := by decide
-- R86: a listing, with its data directives (the head of program P6's bytes)
theorem test_assemble : assemble [.jp 0x203, .dw 0x006A, .db 0x12] = some [0x12, 0x03, 0x00, 0x6A, 0x12] := by decide
-- R86: a label stands for the address of the next word, the first word being at 0x200
theorem test_labels : assembleLines [.label "top", .item (.ldImm 0 0xF0), .ldILabel "data", .jpLabel "top", .label "data",
    .item (.db 0x80)] = some [0x60, 0xF0, 0xA2, 0x06, 0x12, 0x00, 0x80] := by decide
-- The model's choice (log entry 8): the first definition of a label counts, and an undefined label assembles to none
theorem test_label_choices :
    assembleLines [.label "a", .jpLabel "a", .label "a", .item .cls] = some [0x12, 0x00, 0x00, 0xE0] ∧
    assembleLines [.jpLabel "b"] = none := by decide
theorem test_table_word : decodeTableWord 16 0xD015 = some (.drw 0 1 5) := by decide

/-! ### The step cycle -/

-- T-S1, T-S5: the fetch is big-endian, at an even and at an odd pc
theorem test_fetch_even : (after (step (withWord State.reset 0x200 0x6A12))).map (fun t => (t.getV 10, t.pc)) =
    some (0x12, 0x0202) := by decide
theorem test_fetch_odd : (after (step (withWord State.reset 0x203 0x6A12))).map (fun t => (t.getV 10, t.pc)) =
    some (0x12, 0x0205) := by decide
-- T-S2, T-S4: the last address a fetch succeeds at, and the first it does not
theorem test_fetch_last : (after (step (withWord State.reset 0xFFE 0x6001))).map (fun t => (t.getV 0, t.pc)) =
    some (0x01, 0x1000) := by decide
theorem test_fetch_past : (after (step { State.reset with pc := 0x0FFF })).map (fun t => (t.HALT, t.pc)) =
    some (.halted (.outOfBounds 0x1000), 0x0FFF) := by decide
-- T-U1, T-S6: an unrecognized word latches its address and itself; a halted core has no next state
theorem test_unrecognized : (after (step (withWord State.reset 0x200 0x00EE))).map (fun t => (t.HALT, t.pc)) =
    some (.halted (.unrecognizedInstruction 0x0200 0x00EE), 0x0200) := by decide
theorem test_halted : step { State.reset with HALT := .halted (.outOfBounds 0x1000) } =
    .fault (.coreHalted (.outOfBounds 0x1000)) := by rfl
-- R150: the codes, in the order of the table
theorem test_codes : [FaultKind.romUnreadable, .romTooLarge, .unrecognizedInstruction, .stackOverflow, .stackUnderflow,
    .outOfBounds].map FaultKind.code = [1, 2, 3, 4, 5, 6] := by decide

/-! ### The instructions -/

-- T-J7: a jump leaves V and the display alone; T-J6: an odd target
theorem test_jp : (after (step (withWord (regs [(15, 0x5A)] State.reset) 0x200 0x1300))).map
    (fun t => (t.pc, t.getV 15, t.HALT)) = some (0x0300, 0x5A, .running) := by decide
theorem test_jp_odd : (after (step (withWord State.reset 0x200 0x1203))).map (·.pc) = some 0x0203 := by decide
-- T-R1, T-R3
theorem test_ldImm : (after (step (withWord (regs [(3, 0x77)] State.reset) 0x200 0x63AB))).map
    (fun t => (t.getV 3, t.getV 10)) = some (0xAB, 0x00) := by decide
theorem test_ldImm_vf : (after (step (withWord (regs [(15, 0x01)] State.reset) 0x200 0x6FC8))).map (·.getV 15) =
    some 0xC8 := by decide
-- T-R6: the wrap keeps VF; T-R10: VF as destination
theorem test_addImm : (after (step (withWord (regs [(2, 0x80), (15, 0x01)] State.reset) 0x200 0x7280))).map
    (fun t => (t.getV 2, t.getV 15)) = some (0x00, 0x01) := by decide
theorem test_addImm_vf : (after (step (withWord (regs [(15, 0x55)] State.reset) 0x200 0x7FAB))).map (·.getV 15) =
    some 0x00 := by decide
-- T-R12, T-R14
theorem test_ldI : (after (step (withWord { State.reset with I := 0x0123 } 0x200 0xA050))).map
    (fun t => (t.I, t.pc)) = some (0x0050, 0x0202) := by decide
theorem test_ldI_top : (after (step (withWord State.reset 0x200 0xAFFF))).map (·.I) = some 0x0FFF := by decide
-- T-D1: VF is untouched by a clear
theorem test_cls : (after (step (withWord (regs [(15, 0x01)] (canvas [(5, 7), (63, 31)])) 0x200 0x00E0))).map
    (fun t => (t.DISP.get 5 7, t.DISP.get 63 31, t.getV 15)) = some (false, false, 0x01) := by decide
-- T-D9: start at (63, 31): the row wraps, the rows below the edge are dropped
theorem test_drw_wraps : (after (step (withWord (regs [(0, 0xFF), (1, 0xFF)] (canvas [])) 0x200 0xD015))).map
    (fun t => (setCells t.DISP 31 [62, 63, 0, 1, 2, 3], setCells t.DISP 0 [63, 0], t.getV 15)) =
    some ([63, 0, 1, 2], [], 0x00) := by decide
-- The first two rows of T-D14 with (11,2) already set: DF12 takes the old VF as its column, clears that cell, then VF is 1
theorem test_drw_vf_coordinate :
    (after (step (withWord (regs [(15, 0x0A), (1, 0x02)] (canvas [(11, 2)])) 0x200 0xDF12))).map
      (fun t => (setCells t.DISP 2 [9, 10, 11, 12, 13, 14], setCells t.DISP 3 [10, 11, 13], t.getV 15)) =
    some ([10, 12, 13], [10, 13], 0x01) := by decide
-- T-D13: the check covers a row that would be dropped; nothing changes
theorem test_drw_faults : (after (step (withWord (regs [(1, 0x1F), (15, 0x09)] { State.reset with I := 0x0FFF }) 0x200
    0xD012))).map (fun t => (t.HALT, t.pc, t.getV 15)) = some (.halted (.outOfBounds 0x1000), 0x0200, 0x09) := by decide

/-! ### Timers, boot and the host interface -/

-- T-T1, T-T2
theorem test_tick : (State.tick { State.reset with DT := 3, ST := 1 }).DT = 2 ∧
    (State.tick { State.reset with DT := 2, ST := 0 }).ST = 0 := by decide
-- T-T8: a halted core still ticks
theorem test_tick_halted : (System.apply fontDefault .tick
    ⟨.executing, { State.reset with DT := 2, HALT := .halted (.outOfBounds 0x1000) }⟩).map (·.core.DT) = some 1 := by
  decide
-- T-L4: bytes at 0x200, big-endian
theorem test_load : ((State.reset.load (.bytes [0x12, 0x00]) 0x200).toOption.bind fun s => s.fetch.toOption) =
    some 0x1200 := by decide
-- T-L5: the edges of the font region
theorem test_reset_memory : [0x04F, 0x050, 0x054, 0x09F, 0x0A0, 0x1FF].map State.reset.MEM.read =
    [0x00, 0xF0, 0xF0, 0x80, 0x00, 0x00] := by decide
-- T-L8, T-L9
theorem test_pixel : (canvas [(63, 31)]).isPixelSet 63 31 = .ok true ∧ (canvas [(63, 31)]).isPixelSet 0 0 = .ok false ∧
    State.reset.isPixelSet 64 0 = .error (.outOfBounds 64 0) ∧
    State.reset.isPixelSet 0 32 = .error (.outOfBounds 0 32) := by decide
-- T-T4: the sound query
theorem test_sound : (State.isSoundActive { State.reset with ST := 1 }, State.reset.isSoundActive) = (true, false) := by
  decide
-- R60, R175: a load at another offset is no move of the model
theorem test_load_offset : System.apply fontDefault (.load (.bytes []) 0x300) ⟨.fontReady, State.reset⟩ = none := by
  rfl
-- R177, R175: the fault query after boot, and none before
theorem test_fault_query : (System.ask .fault ⟨.executing, State.reset⟩, System.ask .fault ⟨.created, State.reset⟩) =
    (some (.halt .running), none) := by decide

/-! ### Witnesses: states and operands that meet a statement's hypotheses -/

theorem witness_EncodeOfDecodeIsWord : decode 0x6A12 = .ok (.ldImm 10 0x12) := by decide

/-- Each item at the top of its ranges: the bytes are written out from the patterns of R80. -/
theorem witness_AssembledItemsDecode : [AsmItem.cls, .jp 0xFFF, .ldImm 15 255, .addImm 15 255, .ldI 0xFFF, .drw 15 15 15,
    .dw 0xFFFE, .db 0xFF].map (fun a => (a.toInstr, a.bytes)) =
    [(some .cls, some [0x00, 0xE0]), (some (.jp 0xFFF), some [0x1F, 0xFF]), (some (.ldImm 15 255), some [0x6F, 0xFF]),
      (some (.addImm 15 255), some [0x7F, 0xFF]), (some (.ldI 0xFFF), some [0xAF, 0xFF]),
      (some (.drw 15 15 15), some [0xDF, 0xFF]), (none, some [0xFF, 0xFE]), (none, some [0xFF])] := by decide

/-- Each item one past a range. -/
theorem witness_AssembledItems_outside : [AsmItem.jp 0x1000, .ldImm 16 255, .ldImm 15 256, .addImm 16 255, .addImm 15 256,
    .ldI 0x1000, .drw 16 15 15, .drw 15 16 15, .drw 15 15 16, .dw 0x10000, .db 256].all
    (fun a => a.toInstr.isNone && a.bytes.isNone) = true := by decide

theorem witness_StepRunsDecodedInstruction :
    let s := withWord State.reset 0xFFE 0x6001
    s.HALT = .running ∧ s.pc.toNat ≤ 0xFFE ∧
    decode (wordOfBytes (s.MEM.read s.pc.toNat) (s.MEM.read (s.pc.toNat + 1))) = .ok (.ldImm 0 0x01) := by decide

theorem witness_FetchIsBigEndian : (withWord State.reset 0xFFE 0x6001).pc.toNat ≤ 0xFFE := by decide

theorem witness_CheckedReadsNeverWrap : 0xFFF ≤ 0xFFF ∧ 0xFFF < 0x1000 ∧ 0xFFE < 0xFFF := by decide

theorem witness_FetchPastMemoryHalts : let s := { State.reset with pc := 0x0FFF }
    s.HALT = .running ∧ 0xFFF ≤ s.pc.toNat := by decide

theorem witness_UnrecognizedWordHalts : let s := withWord State.reset 0x200 0xFFFF
    s.HALT = .running ∧ s.fetch = .ok 0xFFFF ∧ (0xFFFF : Word) ≠ 0x00E0 ∧
    ∀ k ∈ [0x1, 0x6, 0x7, 0xA, 0xD], (0xFFFF : Word).toNat / 4096 ≠ k := by decide

theorem witness_OnlyHaltedCoreHasNoStep : ∃ s f, step s = .fault (.coreHalted f) ∧ s.HALT = .halted f :=
  ⟨{ State.reset with HALT := .halted (.outOfBounds 0x1000) }, _, rfl, rfl⟩

theorem witness_RunningCoreAlwaysSteps : State.reset.HALT = .running := rfl

theorem witness_FaultingStepIsPrecise : ∃ s t f, step s = .next t ∧ t.HALT = .halted f :=
  ⟨State.reset, State.reset.raise (.unrecognizedInstruction 0x0200 0x0000), _, rfl, rfl⟩

/-- The three clauses of the priority order, at their edges: a fetch at 0xFFF, an unrecognized word, a draw one byte past
the end. -/
theorem witness_FaultsInPriorityOrder :
    (let s := { State.reset with pc := 0x0FFF }; s.HALT = .running ∧ 0xFFF ≤ s.pc.toNat) ∧
    (let s := State.reset; s.HALT = .running ∧ s.fetch = .ok 0x0000 ∧
      decode 0x0000 = .error (.unrecognized 0x0000)) ∧
    (let s := withWord { State.reset with I := 0x0FFF } 0x200 0xD012; s.HALT = .running ∧ s.fetch = .ok 0xD012 ∧
      decode 0xD012 = .ok (.drw 0 1 2) ∧ 1 ≤ (2 : Rows).val ∧ 0xFFF < s.I.toNat + (2 : Rows).val - 1) := by decide

theorem witness_NoStepWritesMemoryStackTimersKeys : ∃ s t, step s = .next t ∧ s.SameUnwritten t :=
  ⟨withWord State.reset 0x200 0x1300, (withWord State.reset 0x200 0x1300).setPc 0x0300, rfl, rfl, rfl, rfl, rfl, rfl, rfl⟩

theorem witness_StepIgnoresTimersKeysStack : ∃ s₁ s₂ t₁, s₁ ≠ s₂ ∧ State.SameInputs s₁ s₂ ∧ step s₁ = .next t₁ :=
  ⟨withWord State.reset 0x200 0x1300, (withWord State.reset 0x200 0x1300).setTimers 5 5,
    (withWord State.reset 0x200 0x1300).setPc 0x0300, fun h => absurd (congrArg State.DT h) (by decide),
    ⟨rfl, rfl, rfl, rfl, rfl, rfl⟩, rfl⟩

/-- Each of the six clauses of the `pc` table, at the last address a fetch succeeds at. -/
theorem witness_StepLeavesPcAsTableSays :
    [(0x00E0, Instr.cls), (0x1300, .jp 0x300), (0x6A12, .ldImm 10 0x12), (0x7F01, .addImm 15 0x01), (0xA050, .ldI 0x050),
      (0xD015, .drw 0 1 5)].all (fun p =>
        let s := withWord (canvas []) 0xFFE p.1
        decide (s.fetch = .ok p.1) && decide (decode p.1 = .ok p.2) &&
        decide ((after (step s)).map (·.HALT) = some .running)) = true := by decide

theorem witness_PlacedInstructionRunsNext : State.reset.MEM.wf = true := rfl

theorem witness_JumpSetsPcExactly : (0x1FFF : Word).toNat / 4096 = 0x1 := by decide
theorem witness_SetImmediateWritesRegister : (0x6FFF : Word).toNat / 4096 = 0x6 := by decide
theorem witness_AddImmediateWrapsWithoutCarry : (0x7FFF : Word).toNat / 4096 = 0x7 := by decide
theorem witness_LoadIndexSetsI : (∃ t, exec (.ldI 0xFFF) State.reset = .next t) ∧ (0xAFFF : Word).toNat / 4096 = 0xA :=
  ⟨⟨_, rfl⟩, by decide⟩
theorem witness_ClearMakesEveryCellFalse : 63 < 64 ∧ 31 < 32 ∧ decode 0x00E0 = .ok .cls := by decide

/-- Draws that complete: no row at the top of `I`'s range; fifteen rows whose last is at 0xFFF. -/
theorem witness_DrawXorsSpriteAndReportsCollision :
    ((0 : Rows).val = 0 ∨ (0xFFFF : Word).toNat + (0 : Rows).val - 1 ≤ 0xFFF) ∧
    ((15 : Rows).val = 0 ∨ (0x0FF1 : Word).toNat + (15 : Rows).val - 1 ≤ 0xFFF) := by decide

/-- A covered cell that is set (a collision), and one that is not covered: glyph 0's first row, at the origin. -/
theorem witness_DrawXors_clauses : (canvas [(1, 0)]).DrawCovers 0 1 1 1 0 ∧ (canvas [(1, 0)]).DISP.get 1 0 = true ∧
    ¬ (canvas [(1, 0)]).DrawCovers 0 1 1 4 0 ∧ ¬ (canvas []).DISP.get 1 0 = true := by
  unfold State.DrawCovers
  decide

theorem witness_DrawPastMemoryHalts : (1 ≤ (1 : Rows).val ∧ 0xFFF < (0x1000 : Word).toNat + (1 : Rows).val - 1) ∧
    (1 ≤ (15 : Rows).val ∧ 0xFFF < (0x0FF2 : Word).toNat + (15 : Rows).val - 1) := by decide

theorem witness_DrawBelowFF1NeverFaults : (State.reset.setI 0x0FF1).I.toNat ≤ 0xFF1 := by decide

theorem witness_DrawingTwiceErases : ∃ s t u, exec (.drw 0 1 1) s = .next t ∧ t.HALT = s.HALT ∧ s.HALT = .running ∧
    t.getV 0 = s.getV 0 ∧ t.getV 1 = s.getV 1 ∧ exec (.drw 0 1 1) t = .next u ∧
    (∀ c r, s.DrawCovers 0 1 1 c r → s.DISP.get c r = false) ∧ (∃ c r, s.DrawCovers 0 1 1 c r) :=
  ⟨canvas [], _, _, rfl, rfl, rfl, rfl, rfl, rfl,
    fun c r _ => by simp [canvas, Display.clear, Display.get],
    0, 0, 0, 0, by decide, by decide, by decide, by decide⟩

/-- Every instruction answers a next state somewhere. -/
theorem witness_FrameOfEveryInstruction : [Instr.cls, .jp 0x300, .ldImm 15 0x12, .addImm 15 0x01, .ldI 0x050,
    .drw 0 1 5].all (fun i => (after (exec i (canvas []))).isSome) = true := by decide

theorem witness_FlagWrittenByDrawAlone :
    (∃ t, exec (.drw 0 1 1) (canvas []) = .next t ∧ (canvas []).HALT = .running ∧ t.HALT = .running) ∧
    (∃ t, exec (.ldImm 15 0xC8) State.reset = .next t ∧ t.getV 15 ≠ State.reset.getV 15) :=
  ⟨⟨_, rfl, rfl, rfl⟩, ⟨_, rfl, by decide⟩⟩

theorem witness_JumpToSelfIsFixedPoint : let s := withWord State.reset 0xFFE 0x1FFE
    s.HALT = .running ∧ s.fetch = .ok 0x1FFE ∧ decode 0x1FFE = .ok (.jp (s.pc.setWidth 12)) := by decide

theorem witness_SetImmediateIsIdempotent : ∃ t u, exec (.ldImm 3 0xAB) State.reset = .next t ∧
    exec (.ldImm 3 0xAB) t = .next u := ⟨_, _, rfl, rfl⟩

theorem witness_StepKeepsInvariant : ∃ s t : State, s.Inv ∧ step s = .next t :=
  ⟨State.reset, State.reset.raise (.unrecognizedInstruction 0x0200 0x0000), ⟨rfl, by decide, by decide, by decide, trivial⟩,
    rfl⟩

theorem witness_ResetValues : (0x04F < 0x050 ∨ 0x09F < 0x04F) ∧ (0x0A0 < 0x050 ∨ 0x09F < 0x0A0) := by decide

theorem witness_CanonicalMemoriesAreEqualData : ∃ m : Memory, m ≠ [] ∧ m.wf = true :=
  ⟨[(0x200, 0x12), (0xFFF, 0x80)], by decide, by decide⟩

theorem witness_TickDecrementsTowardZero :
    (let s := { State.reset with DT := 1 }; 0 < s.DT.toNat ∧ s.ST.toNat = 0) ∧
    (let s := { State.reset with ST := 255 }; s.DT.toNat = 0 ∧ 0 < s.ST.toNat) ∧
    (System.mk .executing State.reset).phase = .executing := by decide

theorem witness_TimersHoldClosedForm : ∃ z, System.run fontDefault [.tick, .setKeys (Vector.replicate 16 true), .step]
    ⟨.executing, { State.reset with DT := 5 }⟩ = some z := ⟨_, rfl⟩

theorem witness_SetKeysChangesKeysAlone : ∃ t, step State.reset = .next t :=
  ⟨State.reset.raise (.unrecognizedInstruction 0x0200 0x0000), rfl⟩

theorem witness_PixelQueryAnswersCell : (64 ≤ 64 ∨ 32 ≤ 0) ∧ (64 ≤ 0 ∨ 32 ≤ 32) := by decide

theorem witness_InitializeFontWritesTable : State.zeroed.MEM.wf = true ∧ (0x04F < 0x050 ∨ 0x09F < 0x04F) ∧
    (0x0A0 < 0x050 ∨ 0x09F < 0x0A0) ∧ (System.mk .fontReady State.reset).phase ≠ .created :=
  ⟨Memory.wf_zeros, by decide, by decide, by decide⟩

theorem witness_LoadCopiesOrFails : State.reset.MEM.wf = true ∧ (List.replicate 3584 (0 : Byte)).length ≤ 3584 ∧
    3584 < (List.replicate 3585 (0 : Byte)).length :=
  ⟨rfl, by rw [List.length_replicate], by rw [List.length_replicate]; decide⟩

theorem witness_BootLeadsToLaunchState : (List.replicate 3584 (0 : Byte)).length ≤ 3584 ∧
    System.initial.phase ≠ .executing := ⟨by rw [List.length_replicate], by decide⟩

theorem witness_EventKeepsSystemInvariant : System.initial.Inv ∧
    System.initial.apply fontDefault .initializeFont = some ⟨.fontReady, State.zeroed.initializeFont fontDefault⟩ :=
  ⟨⟨⟨Memory.wf_zeros, by decide, by decide, by decide, trivial⟩, rfl, by decide, rfl, rfl, fun _ => rfl⟩, rfl⟩

theorem witness_ReachableStatesMeetInvariants :
    System.Reachable fontDefault ⟨.fontReady, State.zeroed.initializeFont fontDefault⟩ :=
  .event .initializeFont .initial rfl

theorem witness_MemoryConstantAfterBoot : Event.reset ∉ [Event.step, .tick] ∧
    ∃ z, System.run fontDefault [.step, .tick] ⟨.executing, State.reset⟩ = some z := ⟨by decide, _, rfl⟩

theorem witness_HaltIsStickyUntilReset : Event.reset ∉ [Event.tick] ∧ ∃ z, System.run fontDefault [.tick]
    ⟨.executing, { State.reset with HALT := .halted (.outOfBounds 0x1000), DT := 2 }⟩ = some z := ⟨by decide, _, rfl⟩

end Sys2Proof.Tests
end

-- ==== Proofs: the canonical fields (40_step_cycle.md R103) ====
section

namespace Sys2Proof

/-! ### The canonical fields as numbers -/

/-- A bit field is division by the weight of its lowest bit, then remainder by its size. -/
theorem extractLsb'_toNat_eq_div_mod (w : Word) (start len : Nat) :
    (w.extractLsb' start len).toNat = w.toNat / 2 ^ start % 2 ^ len := by
  rw [BitVec.extractLsb'_toNat, Nat.shiftRight_eq_div_pow]

/-- A field at the low end of the word is a remainder alone. -/
theorem extractLsb'_zero_toNat_eq_mod (w : Word) (len : Nat) :
    (w.extractLsb' 0 len).toNat = w.toNat % 2 ^ len := by
  rw [extractLsb'_toNat_eq_div_mod, pow_zero, Nat.div_one]

/-- The top nibble needs no remainder: a word is below 16 * 4096. -/
@[simp] theorem extractFields_op_toNat (w : Word) : (extractFields w).op.toNat = w.toNat / 4096 := by
  have hfield : (extractFields w).op.toNat = w.toNat / 4096 % 16 := extractLsb'_toNat_eq_div_mod w 12 4
  have hw := w.isLt
  omega

@[simp] theorem extractFields_x_val (w : Word) : (extractFields w).x.val = w.toNat / 256 % 16 :=
  extractLsb'_toNat_eq_div_mod w 8 4

@[simp] theorem extractFields_y_val (w : Word) : (extractFields w).y.val = w.toNat / 16 % 16 :=
  extractLsb'_toNat_eq_div_mod w 4 4

@[simp] theorem extractFields_n_val (w : Word) : (extractFields w).n.val = w.toNat % 16 :=
  extractLsb'_zero_toNat_eq_mod w 4

@[simp] theorem extractFields_nn_toNat (w : Word) : (extractFields w).nn.toNat = w.toNat % 256 :=
  extractLsb'_zero_toNat_eq_mod w 8

@[simp] theorem extractFields_nnn_toNat (w : Word) : (extractFields w).nnn.toNat = w.toNat % 4096 :=
  extractLsb'_zero_toNat_eq_mod w 12

/-- Settles O2, from the value of each field. -/
theorem canonicalFieldsOfEveryWord : Obligations.CanonicalFieldsOfEveryWord := fun w =>
  ⟨extractFields_op_toNat w, extractFields_x_val w, extractFields_y_val w, extractFields_n_val w,
    extractFields_nn_toNat w, extractFields_nnn_toNat w⟩

end Sys2Proof
end

-- ==== Proofs: the jump (41_jump.md R115) ====
section

namespace Sys2Proof

/-! ### Decoding by the class of the word -/

/-- A word of a class other than 0 is not `00E0`, so the first row of the map leaves it to the rows of the classes. -/
theorem rowCls_not_hits_of_class {w : Word} {k : Nat} (hk : k ≠ 0) (hw : w.toNat / 4096 = k) :
    ¬ rowCls.hits w = true := by
  rw [rowCls_hits_iff]
  rintro rfl
  exact hk hw.symm

/-- The field `nnn`, as the truncation of the word to its low twelve bits. -/
theorem extractFields_nnn_eq_ofNat (w : Word) : (extractFields w).nnn = BitVec.ofNat 12 w.toNat := by
  apply BitVec.eq_of_toNat_eq
  rw [extractFields_nnn_toNat, BitVec.toNat_ofNat]

/-- 30_encoding.md R80: every word of class 1 is `1nnn`. -/
theorem decode_of_class_1 {w : Word} (hw : w.toNat / 4096 = 0x1) :
    decode w = .ok (.jp (BitVec.ofNat 12 w.toNat)) := by
  have hcls : ¬ rowCls.hits w = true := rowCls_not_hits_of_class one_ne_zero hw
  have hjp : rowJp.hits w = true := (rowJp_hits_iff w).mpr hw
  rw [decode, if_neg hcls, if_pos hjp, extractFields_nnn_eq_ofNat]

namespace Machine

/-! ### The meaning of the jump -/

/-- Zero extension keeps the number. -/
theorem zext16_eq_ofNat (a : Addr12) : zext16 a = BitVec.ofNat 16 a.toNat :=
  (BitVec.ofNat_toNat 16 a).symm

/-- R115: the target replaces the `pc` that R102 advanced, and the jump writes nothing else. -/
theorem exec_jp (nnn : Addr12) (s : State) : exec (.jp nnn) s = .next { s with pc := zext16 nnn } := rfl

end Machine

/-- Settles O21, from the jump's next state and the decoding of class 1. -/
theorem jumpSetsPcExactly : Obligations.JumpSetsPcExactly := by
  constructor
  · intro s nnn
    rw [Machine.exec_jp, Machine.zext16_eq_ofNat]
  · intro w hw
    exact decode_of_class_1 hw

end Sys2Proof
end

-- ==== Proofs: register immediates (42_register_immediate.md R120, R123, R126) ====
section

namespace Sys2Proof

/-! ### Decoding of the classes 6, 7 and A -/

/-- A row that stands for one class leaves the words of every other class to the rows below it. -/
theorem not_hits_of_class_ne {r : OpcodeRow} {w : Word} {j k : Nat} (hr : r.hits w = true ↔ w.toNat / 4096 = j)
    (hw : w.toNat / 4096 = k) (hne : k ≠ j) : ¬ r.hits w = true := by
  rw [hr, hw]
  exact hne

/-- The field `x`, as the low nibble of the word's high byte. -/
theorem extractFields_x_eq_ofNat (w : Word) : (extractFields w).x = Fin.ofNat 16 (w.toNat / 256) :=
  Fin.ext (extractFields_x_val w)

/-- The field `nn`, as the truncation of the word to its low byte. -/
theorem extractFields_nn_eq_ofNat (w : Word) : (extractFields w).nn = BitVec.ofNat 8 w.toNat := by
  apply BitVec.eq_of_toNat_eq
  rw [extractFields_nn_toNat, BitVec.toNat_ofNat]

/-- 30_encoding.md R80: every word of class 6 is `6xnn`. -/
theorem decode_of_class_6 {w : Word} (hw : w.toNat / 4096 = 0x6) :
    decode w = .ok (.ldImm (Fin.ofNat 16 (w.toNat / 256)) (BitVec.ofNat 8 w.toNat)) := by
  have hcls : ¬ rowCls.hits w = true := rowCls_not_hits_of_class (by decide) hw
  have hjp : ¬ rowJp.hits w = true := not_hits_of_class_ne (rowJp_hits_iff w) hw (by decide)
  have hldImm : rowLdImm.hits w = true := (rowLdImm_hits_iff w).mpr hw
  rw [decode, if_neg hcls, if_neg hjp, if_pos hldImm, extractFields_x_eq_ofNat, extractFields_nn_eq_ofNat]

/-- 30_encoding.md R80: every word of class 7 is `7xnn`. -/
theorem decode_of_class_7 {w : Word} (hw : w.toNat / 4096 = 0x7) :
    decode w = .ok (.addImm (Fin.ofNat 16 (w.toNat / 256)) (BitVec.ofNat 8 w.toNat)) := by
  have hcls : ¬ rowCls.hits w = true := rowCls_not_hits_of_class (by decide) hw
  have hjp : ¬ rowJp.hits w = true := not_hits_of_class_ne (rowJp_hits_iff w) hw (by decide)
  have hldImm : ¬ rowLdImm.hits w = true := not_hits_of_class_ne (rowLdImm_hits_iff w) hw (by decide)
  have haddImm : rowAddImm.hits w = true := (rowAddImm_hits_iff w).mpr hw
  rw [decode, if_neg hcls, if_neg hjp, if_neg hldImm, if_pos haddImm, extractFields_x_eq_ofNat,
    extractFields_nn_eq_ofNat]

/-- 30_encoding.md R80: every word of class A is `Annn`. -/
theorem decode_of_class_A {w : Word} (hw : w.toNat / 4096 = 0xA) :
    decode w = .ok (.ldI (BitVec.ofNat 12 w.toNat)) := by
  have hcls : ¬ rowCls.hits w = true := rowCls_not_hits_of_class (by decide) hw
  have hjp : ¬ rowJp.hits w = true := not_hits_of_class_ne (rowJp_hits_iff w) hw (by decide)
  have hldImm : ¬ rowLdImm.hits w = true := not_hits_of_class_ne (rowLdImm_hits_iff w) hw (by decide)
  have haddImm : ¬ rowAddImm.hits w = true := not_hits_of_class_ne (rowAddImm_hits_iff w) hw (by decide)
  have hldI : rowLdI.hits w = true := (rowLdI_hits_iff w).mpr hw
  rw [decode, if_neg hcls, if_neg hjp, if_neg hldImm, if_neg haddImm, if_pos hldI, extractFields_nnn_eq_ofNat]

namespace Machine

/-! ### The meanings of the register immediates -/

/-- R120: the immediate replaces `V[x]`, whatever it held; beside the advance of R102 nothing else is written. -/
theorem exec_ldImm (x : RegIx) (nn : Byte) (s : State) :
    exec (.ldImm x nn) s = .next { s with V := s.V.set x.val nn, pc := s.pc + 2 } := rfl

/-- R123: the reduced sum replaces `V[x]`; beside the advance of R102 nothing else is written, no carry anywhere. -/
theorem exec_addImm (x : RegIx) (nn : Byte) (s : State) :
    exec (.addImm x nn) s =
      .next { s with V := s.V.set x.val (addMod256 (s.getV x) nn), pc := s.pc + 2 } := rfl

/-- R126: the address replaces `I`, whatever it held; beside the advance of R102 nothing else is written. -/
theorem exec_ldI (nnn : Addr12) (s : State) :
    exec (.ldI nnn) s = .next { s with I := zext16 nnn, pc := s.pc + 2 } := rfl

/-- R126: the index register after `Annn` holds the number `nnn`. -/
theorem I_toNat_of_exec_ldI {s t : State} {nnn : Addr12} (h : exec (.ldI nnn) s = .next t) :
    t.I.toNat = nnn.toNat := by
  rw [exec_ldI] at h
  cases h
  exact zext16_toNat nnn

/-- R138: a draw of one row reads the byte at `I` alone, so its check finds nothing while `I` is an address. -/
theorem spriteFault_one_eq_none {s : State} (h : s.I.toNat ≤ 0xFFF) : s.spriteFault 1 = none := by
  obtain ⟨hnone, -⟩ | ⟨-, -, hpast⟩ := spriteFault_cases s 1
  · exact hnone
  · exact absurd h (Nat.not_le_of_lt hpast)

end Machine

/-! ### The obligations -/

/-- Settles O22, from the next state of `6xnn` and the decoding of class 6. -/
theorem setImmediateWritesRegister : Obligations.SetImmediateWritesRegister := by
  constructor
  · intro s x nn
    exact Machine.exec_ldImm x nn s
  · intro w hw
    exact decode_of_class_6 hw

/-- Settles O23: the byte written is the sum modulo 256 of the model, whose number is the reduced natural sum. -/
theorem addImmediateWrapsWithoutCarry : Obligations.AddImmediateWrapsWithoutCarry := by
  constructor
  · intro s x nn
    exact ⟨Machine.addMod256 (s.getV x) nn, Machine.addMod256_toNat (s.getV x) nn, Machine.exec_addImm x nn s⟩
  · intro w hw
    exact decode_of_class_7 hw

/-- Settles O24: `I` becomes a twelve-bit number, so the one byte a following draw of one row reads is inside memory. -/
theorem loadIndexSetsI : Obligations.LoadIndexSetsI := by
  refine ⟨?_, ?_, ?_, ?_⟩
  · intro s nnn
    rw [Machine.exec_ldI, Machine.zext16_eq_ofNat]
  · intro s nnn old
    rw [Machine.exec_ldI, Machine.exec_ldI]
  · intro s t nnn h
    have hI : t.I.toNat = nnn.toNat := Machine.I_toNat_of_exec_ldI h
    have hle : t.I.toNat ≤ 0xFFF := hI ▸ Nat.le_of_lt_succ nnn.isLt
    exact ⟨hI, Machine.spriteFault_one_eq_none hle⟩
  · intro w hw
    exact decode_of_class_A hw

end Sys2Proof
end

-- ==== Proofs: the decoder and the encoder (30_encoding.md sections 3 and 4) ====
section

namespace Sys2Proof

/-! ### Decoding of `00E0`, of class D and of every other word -/

/-- The field `y`, as the high nibble of the word's low byte. -/
theorem extractFields_y_eq_ofNat (w : Word) : (extractFields w).y = Fin.ofNat 16 (w.toNat / 16) :=
  Fin.ext (extractFields_y_val w)

/-- The field `n`, as the low nibble of the word's low byte. -/
theorem extractFields_n_eq_ofNat (w : Word) : (extractFields w).n = Fin.ofNat 16 w.toNat :=
  Fin.ext (extractFields_n_val w)

/-- 30_encoding.md R82: `00E0` is matched on all sixteen bits, by the first row. -/
theorem decode_00E0 : decode 0x00E0 = .ok .cls := rfl

/-- 30_encoding.md R80: every word of class D is `Dxyn`. -/
theorem decode_of_class_D {w : Word} (hw : w.toNat / 4096 = 0xD) :
    decode w = .ok (.drw (Fin.ofNat 16 (w.toNat / 256)) (Fin.ofNat 16 (w.toNat / 16)) (Fin.ofNat 16 w.toNat)) := by
  have hcls : ¬ rowCls.hits w = true := rowCls_not_hits_of_class (by decide) hw
  have hjp : ¬ rowJp.hits w = true := not_hits_of_class_ne (rowJp_hits_iff w) hw (by decide)
  have hldImm : ¬ rowLdImm.hits w = true := not_hits_of_class_ne (rowLdImm_hits_iff w) hw (by decide)
  have haddImm : ¬ rowAddImm.hits w = true := not_hits_of_class_ne (rowAddImm_hits_iff w) hw (by decide)
  have hldI : ¬ rowLdI.hits w = true := not_hits_of_class_ne (rowLdI_hits_iff w) hw (by decide)
  have hdrw : rowDrw.hits w = true := (rowDrw_hits_iff w).mpr hw
  rw [decode, if_neg hcls, if_neg hjp, if_neg hldImm, if_neg haddImm, if_neg hldI, if_pos hdrw,
    extractFields_x_eq_ofNat, extractFields_y_eq_ofNat, extractFields_n_eq_ofNat]

/-- 44_unrecognized.md section 1: no row is left for a word that is neither `00E0` nor of an instruction's class. -/
theorem decode_eq_error {w : Word} (hcls : w ≠ 0x00E0) (hclass : ∀ k ∈ [0x1, 0x6, 0x7, 0xA, 0xD], w.toNat / 4096 ≠ k) :
    decode w = .error (.unrecognized w) := by
  have hcls' : ¬ rowCls.hits w = true := mt (rowCls_hits_iff w).mp hcls
  have hjp : ¬ rowJp.hits w = true := mt (rowJp_hits_iff w).mp (hclass _ (by decide))
  have hldImm : ¬ rowLdImm.hits w = true := mt (rowLdImm_hits_iff w).mp (hclass _ (by decide))
  have haddImm : ¬ rowAddImm.hits w = true := mt (rowAddImm_hits_iff w).mp (hclass _ (by decide))
  have hldI : ¬ rowLdI.hits w = true := mt (rowLdI_hits_iff w).mp (hclass _ (by decide))
  have hdrw : ¬ rowDrw.hits w = true := mt (rowDrw_hits_iff w).mp (hclass _ (by decide))
  rw [decode, if_neg hcls', if_neg hjp, if_neg hldImm, if_neg haddImm, if_neg hldI, if_neg hdrw]

/-- Every word is `00E0`, or of one of the five classes of instructions, or unrecognized. -/
theorem word_cases (w : Word) :
    w = 0x00E0 ∨ w.toNat / 4096 = 0x1 ∨ w.toNat / 4096 = 0x6 ∨ w.toNat / 4096 = 0x7 ∨ w.toNat / 4096 = 0xA ∨
    w.toNat / 4096 = 0xD ∨ (w ≠ 0x00E0 ∧ ∀ k ∈ [0x1, 0x6, 0x7, 0xA, 0xD], w.toNat / 4096 ≠ k) := by
  simp only [List.forall_mem_cons]
  tauto

/-! ### Encoding of what a class decodes to -/

/-- A word of class `op` is the format `NNN` of its own low twelve bits. -/
theorem formatNNN_of_class {w : Word} {op : BitVec 4} (hw : w.toNat / 4096 = op.toNat) :
    formatNNN op (BitVec.ofNat 12 w.toNat) = w := by
  apply BitVec.eq_of_toNat_eq
  rw [formatNNN_toNat, BitVec.toNat_ofNat]
  omega

/-- A word of class `op` is the format `XNN` of its own fields. -/
theorem formatXNN_of_class {w : Word} {op : BitVec 4} (hw : w.toNat / 4096 = op.toNat) :
    formatXNN op (Fin.ofNat 16 (w.toNat / 256)) (BitVec.ofNat 8 w.toNat) = w := by
  apply BitVec.eq_of_toNat_eq
  rw [formatXNN_toNat, BitVec.toNat_ofNat, Fin.val_ofNat]
  omega

/-- A word of class `op` is the format `XYN` of its own fields. -/
theorem formatXYN_of_class {w : Word} {op : BitVec 4} (hw : w.toNat / 4096 = op.toNat) :
    formatXYN op (Fin.ofNat 16 (w.toNat / 256)) (Fin.ofNat 16 (w.toNat / 16)) (Fin.ofNat 16 w.toNat) = w := by
  apply BitVec.eq_of_toNat_eq
  rw [formatXYN_toNat, Fin.val_ofNat, Fin.val_ofNat, Fin.val_ofNat]
  omega

/-! ### Decoding of what a format encodes -/

theorem formatNNN_class (op : BitVec 4) (nnn : Addr12) : (formatNNN op nnn).toNat / 4096 = op.toNat := by
  rw [formatNNN_toNat]
  omega

theorem formatXNN_class (op : BitVec 4) (x : RegIx) (nn : Byte) : (formatXNN op x nn).toNat / 4096 = op.toNat := by
  rw [formatXNN_toNat]
  omega

theorem formatXYN_class (op : BitVec 4) (x y : RegIx) (n : Rows) : (formatXYN op x y n).toNat / 4096 = op.toNat := by
  rw [formatXYN_toNat]
  omega

theorem ofNat_formatNNN_nnn (op : BitVec 4) (nnn : Addr12) : BitVec.ofNat 12 (formatNNN op nnn).toNat = nnn := by
  apply BitVec.eq_of_toNat_eq
  rw [BitVec.toNat_ofNat, formatNNN_toNat]
  omega

theorem ofNat_formatXNN_x (op : BitVec 4) (x : RegIx) (nn : Byte) :
    Fin.ofNat 16 ((formatXNN op x nn).toNat / 256) = x := by
  apply Fin.ext
  rw [Fin.val_ofNat, formatXNN_toNat]
  omega

theorem ofNat_formatXNN_nn (op : BitVec 4) (x : RegIx) (nn : Byte) :
    BitVec.ofNat 8 (formatXNN op x nn).toNat = nn := by
  apply BitVec.eq_of_toNat_eq
  rw [BitVec.toNat_ofNat, formatXNN_toNat]
  omega

theorem ofNat_formatXYN_x (op : BitVec 4) (x y : RegIx) (n : Rows) :
    Fin.ofNat 16 ((formatXYN op x y n).toNat / 256) = x := by
  apply Fin.ext
  rw [Fin.val_ofNat, formatXYN_toNat]
  omega

theorem ofNat_formatXYN_y (op : BitVec 4) (x y : RegIx) (n : Rows) :
    Fin.ofNat 16 ((formatXYN op x y n).toNat / 16) = y := by
  apply Fin.ext
  rw [Fin.val_ofNat, formatXYN_toNat]
  omega

theorem ofNat_formatXYN_n (op : BitVec 4) (x y : RegIx) (n : Rows) :
    Fin.ofNat 16 (formatXYN op x y n).toNat = n := by
  apply Fin.ext
  rw [Fin.val_ofNat, formatXYN_toNat]
  omega

/-- Decoding the word of an instruction gives it back: the word is of the instruction's class and its fields are the
operands. -/
@[simp] theorem decode_encode (i : Instr) : decode (encode i) = .ok i := by
  cases i with
  | cls => exact decode_00E0
  | jp nnn => rw [encode, decode_of_class_1 (formatNNN_class 0x1 nnn), ofNat_formatNNN_nnn]
  | ldImm x nn => rw [encode, decode_of_class_6 (formatXNN_class 0x6 x nn), ofNat_formatXNN_x, ofNat_formatXNN_nn]
  | addImm x nn => rw [encode, decode_of_class_7 (formatXNN_class 0x7 x nn), ofNat_formatXNN_x, ofNat_formatXNN_nn]
  | ldI nnn => rw [encode, decode_of_class_A (formatNNN_class 0xA nnn), ofNat_formatNNN_nnn]
  | drw x y n =>
    rw [encode, decode_of_class_D (formatXYN_class 0xD x y n), ofNat_formatXYN_x, ofNat_formatXYN_y,
      ofNat_formatXYN_n]

/-- The bytes of an instruction, whatever follows them, decode to it and leave what follows. -/
theorem decodeBytes_encodeBytes (i : Instr) (rest : List Byte) :
    decodeBytes (encodeBytes i ++ rest) = .ok (i, rest) := by
  simp only [encodeBytes, wordBytes, List.cons_append, List.nil_append, decodeBytes, Machine.wordOfBytes_wordBytes,
    decode_encode]

/-- A word that decodes is the word of the instruction it decodes to. -/
theorem encode_of_decode {w : Word} {i : Instr} (h : decode w = .ok i) : encode i = w := by
  obtain rfl | hw | hw | hw | hw | hw | ⟨hcls, hclass⟩ := word_cases w
  · cases decode_00E0.symm.trans h
    rfl
  · cases (decode_of_class_1 hw).symm.trans h
    exact formatNNN_of_class hw
  · cases (decode_of_class_6 hw).symm.trans h
    exact formatXNN_of_class hw
  · cases (decode_of_class_7 hw).symm.trans h
    exact formatXNN_of_class hw
  · cases (decode_of_class_A hw).symm.trans h
    exact formatNNN_of_class hw
  · cases (decode_of_class_D hw).symm.trans h
    exact formatXYN_of_class hw
  · cases (decode_eq_error hcls hclass).symm.trans h

/-- `00E0` alone is CLS. -/
theorem decode_eq_cls_iff (w : Word) : decode w = .ok .cls ↔ w = 0x00E0 :=
  ⟨fun h => (encode_of_decode h).symm, fun h => h ▸ decode_00E0⟩

/-! ### The rows of the opcode map -/

/-- Every row of the opcode map matches on the whole top nibble. -/
theorem topNibble_of_hits {r : OpcodeRow} (hr : r ∈ opcodeMap) {w : Word} (hw : r.hits w = true) :
    w.toNat / 4096 = r.pattern.toNat / 4096 := by
  simp only [opcodeMap, List.mem_cons, List.not_mem_nil, or_false] at hr
  obtain rfl | rfl | rfl | rfl | rfl | rfl := hr
  · rw [(rowCls_hits_iff w).mp hw]
    rfl
  · exact (rowJp_hits_iff w).mp hw
  · exact (rowLdImm_hits_iff w).mp hw
  · exact (rowAddImm_hits_iff w).mp hw
  · exact (rowLdI_hits_iff w).mp hw
  · exact (rowDrw_hits_iff w).mp hw

/-- No two rows of the opcode map have the same top nibble. -/
theorem opcodeMap_topNibbles_distinct :
    opcodeMap.Pairwise fun r q => r.pattern.toNat / 4096 ≠ q.pattern.toNat / 4096 := by
  decide

/-! ### The obligations -/

/-- Settles O3, from the class and the fields of the word each format makes. -/
theorem decodeOfEncodeIsInstruction : Obligations.DecodeOfEncodeIsInstruction := fun i rest =>
  ⟨decode_encode i, decodeBytes_encodeBytes i rest⟩

/-- Settles O4, by the class of the word. -/
theorem encodeOfDecodeIsWord : Obligations.EncodeOfDecodeIsWord := fun _ _ => encode_of_decode

/-- Settles O5: `00E0` and every word of the five classes decodes, and no row is left for any other word. -/
theorem unrecognizedWordsExactly : Obligations.UnrecognizedWordsExactly := by
  intro w
  constructor
  · intro h
    obtain rfl | hw | hw | hw | hw | hw | hother := word_cases w
    · cases decode_00E0.symm.trans h
    · cases (decode_of_class_1 hw).symm.trans h
    · cases (decode_of_class_6 hw).symm.trans h
    · cases (decode_of_class_7 hw).symm.trans h
    · cases (decode_of_class_A hw).symm.trans h
    · cases (decode_of_class_D hw).symm.trans h
    · exact hother
  · rintro ⟨hcls, hclass⟩
    exact decode_eq_error hcls hclass

/-- Settles O6: two rows that matched one word would have the same top nibble. -/
theorem opcodeRowsNeverOverlap : Obligations.OpcodeRowsNeverOverlap := by
  refine opcodeMap_topNibbles_distinct.imp_of_mem ?_
  rintro r q hr hq hne w ⟨hrw, hqw⟩
  exact hne ((topNibble_of_hits hr hrw).symm.trans (topNibble_of_hits hq hqw))

/-- Settles O1, each word by its class. -/
theorem specWordsDecode : Obligations.SpecWordsDecode :=
  ⟨decode_00E0, decode_of_class_1 rfl, decode_of_class_6 rfl, decode_of_class_7 rfl, decode_of_class_A rfl,
    decode_of_class_D rfl, decode_of_class_D rfl, decode_eq_error (by decide) (by decide),
    decode_eq_error (by decide) (by decide), decode_eq_error (by decide) (by decide)⟩

end Sys2Proof
end

-- ==== Proofs: what each instruction does and leaves alone (41_jump.md to 43_display.md) ====
section

namespace Sys2Proof.Machine

/-! ### The meanings of the display operations -/

/-- R130: every cell is cleared; beside the advance of R102 nothing else is written. -/
theorem exec_cls (s : State) : exec .cls s = .next { s with DISP := Display.clear, pc := s.pc + 2 } := rfl

/-- What the loops of R134 leave for `Dxyn`, from the coordinates the registers hold before the step (R135). -/
def State.drawn (s : State) (x y : RegIx) (n : Rows) : Blit := s.blit (s.startX x) (s.startY y) n.val

/-- R138: a draw whose check fails raises in the state before the step. -/
theorem exec_drw_of_fault {s : State} {n : Rows} {b : Nat} (h : s.spriteFault n = some b) (x y : RegIx) :
    exec (.drw x y n) s = .next (s.raise (.outOfBounds b)) := by
  simp only [exec, execDrw, h]

/-- R134: a draw whose check finds nothing leaves the blitted display and the collision in VF. -/
theorem exec_drw_of_noFault {s : State} {n : Rows} (h : s.spriteFault n = none) (x y : RegIx) :
    exec (.drw x y n) s = .next { s with
      DISP := (s.drawn x y n).disp, V := s.V.set 15 (collisionFlag (s.drawn x y n).hit), pc := s.pc + 2 } := by
  simp only [exec, execDrw, h]
  rfl

/-- R138: the check fails when a byte of the `n` rows lies above 0xFFF. -/
theorem spriteFault_eq_some {s : State} {n : Rows} (hn : 1 ≤ n.val) (hI : 0xFFF < s.I.toNat + n.val - 1) :
    s.spriteFault n = some (max s.I.toNat 0x1000) := by
  obtain ⟨-, h⟩ | ⟨h, -, -⟩ := spriteFault_cases s n
  · omega
  · exact h

/-- R138: the check finds nothing when every byte of the `n` rows lies inside memory. -/
theorem spriteFault_eq_none {s : State} {n : Rows} (hI : n.val = 0 ∨ s.I.toNat + n.val - 1 ≤ 0xFFF) :
    s.spriteFault n = none := by
  obtain ⟨h, -⟩ | ⟨-, h⟩ := spriteFault_cases s n
  · exact h
  · omega

/-! ### What an instruction can do -/

/-- An instruction either is a draw that raises, or completes: then the latch and what no step writes are as they were,
`pc` is advanced or jumped, and `I` is as it was or loaded. -/
theorem exec_next_cases {i : Instr} {s t : State} (h : exec i s = .next t) :
    (∃ x y n b, i = .drw x y n ∧ s.spriteFault n = some b ∧ t = s.raise (.outOfBounds b)) ∨
    (t.HALT = s.HALT ∧ s.SameUnwritten t ∧ (t.pc = s.pc + 2 ∨ ∃ nnn, t.pc = zext16 nnn) ∧
      (t.I = s.I ∨ ∃ nnn, t.I = zext16 nnn)) := by
  cases i with
  | cls =>
    cases h
    exact .inr ⟨rfl, ⟨rfl, rfl, rfl, rfl, rfl, rfl⟩, .inl rfl, .inl rfl⟩
  | jp nnn =>
    cases h
    exact .inr ⟨rfl, ⟨rfl, rfl, rfl, rfl, rfl, rfl⟩, .inr ⟨nnn, rfl⟩, .inl rfl⟩
  | ldImm x nn =>
    cases h
    exact .inr ⟨rfl, ⟨rfl, rfl, rfl, rfl, rfl, rfl⟩, .inl rfl, .inl rfl⟩
  | addImm x nn =>
    cases h
    exact .inr ⟨rfl, ⟨rfl, rfl, rfl, rfl, rfl, rfl⟩, .inl rfl, .inl rfl⟩
  | ldI nnn =>
    cases h
    exact .inr ⟨rfl, ⟨rfl, rfl, rfl, rfl, rfl, rfl⟩, .inl rfl, .inr ⟨nnn, rfl⟩⟩
  | drw x y n =>
    cases hf : s.spriteFault n with
    | some b =>
      cases (exec_drw_of_fault hf x y).symm.trans h
      exact .inl ⟨x, y, n, b, rfl, hf, rfl⟩
    | none =>
      cases (exec_drw_of_noFault hf x y).symm.trans h
      exact .inr ⟨rfl, ⟨rfl, rfl, rfl, rfl, rfl, rfl⟩, .inl rfl, .inl rfl⟩

/-- Raising writes nothing but the latch. -/
theorem sameUnwritten_raise (s : State) (f : CoreFault) : s.SameUnwritten (s.raise f) :=
  ⟨rfl, rfl, rfl, rfl, rfl, rfl⟩

/-- No instruction writes memory, the call stack, a timer or the key latch (R107, R148). -/
theorem sameUnwritten_of_exec {i : Instr} {s t : State} (h : exec i s = .next t) : s.SameUnwritten t := by
  obtain ⟨x, y, n, b, -, -, rfl⟩ | ⟨-, hsame, -, -⟩ := exec_next_cases h
  · exact sameUnwritten_raise s _
  · exact hsame

/-- A draw that leaves a running core running drew. -/
theorem noFault_of_exec_drw {s t : State} {x y : RegIx} {n : Rows} (h : exec (.drw x y n) s = .next t)
    (ht : t.HALT = .running) : s.spriteFault n = none := by
  cases hf : s.spriteFault n with
  | none => rfl
  | some b =>
    cases (exec_drw_of_fault hf x y).symm.trans h
    cases ht

/-- What a draw whose check finds nothing leaves in the fields that the next draw reads, and in VF. -/
theorem fields_of_exec_drw {s t : State} {x y : RegIx} {n : Rows} (hcheck : s.spriteFault n = none)
    (h : exec (.drw x y n) s = .next t) :
    t.MEM = s.MEM ∧ t.I = s.I ∧ t.DISP = (s.drawn x y n).disp ∧ t.getV 15 = collisionFlag (s.drawn x y n).hit := by
  cases (exec_drw_of_noFault hcheck x y).symm.trans h
  exact ⟨rfl, rfl, rfl, State.getV_setCollision_flag s _⟩

end Sys2Proof.Machine

namespace Sys2Proof

open Sys2Proof.Machine

/-! ### The obligations -/

/-- Settles O32: the next state of each instruction shows which fields it writes. -/
theorem frameOfEveryInstruction : Obligations.FrameOfEveryInstruction := by
  intro i s t h
  have hsame : s.SameUnwritten t := sameUnwritten_of_exec h
  have hread : ∀ a, t.MEM.read a = s.MEM.read a := fun a => by rw [hsame.1]
  refine ⟨hread, hsame, ?_⟩
  cases i with
  | cls =>
    cases h
    exact ⟨fun _ _ => rfl, fun _ => rfl, False.elim, fun _ => rfl⟩
  | jp nnn =>
    cases h
    exact ⟨fun _ _ => rfl, fun _ => rfl, fun _ _ _ => rfl, fun _ => rfl⟩
  | ldImm x nn =>
    cases h
    exact ⟨fun r hr => State.getV_setV_of_ne s (Ne.symm hr) nn, fun _ => rfl, fun _ _ _ => rfl, fun _ => rfl⟩
  | addImm x nn =>
    cases h
    exact ⟨fun r hr => State.getV_setV_of_ne s (Ne.symm hr) _, fun _ => rfl, fun _ _ _ => rfl, fun _ => rfl⟩
  | ldI nnn =>
    cases h
    exact ⟨fun _ _ => rfl, False.elim, fun _ _ _ => rfl, fun _ => rfl⟩
  | drw x y n =>
    cases hf : s.spriteFault n with
    | some b =>
      cases (exec_drw_of_fault hf x y).symm.trans h
      exact ⟨fun _ _ => rfl, fun _ => rfl, False.elim, False.elim⟩
    | none =>
      cases (exec_drw_of_noFault hf x y).symm.trans h
      exact ⟨fun r hr => State.getV_setCollision_of_ne s hr _, fun _ => rfl, False.elim, False.elim⟩

/-- Settles O33: the draw writes the collision flag, and any other change of VF has register 15 as destination. -/
theorem flagWrittenByDrawAlone : Obligations.FlagWrittenByDrawAlone := by
  constructor
  · intro s t x y n h _ ht
    obtain ⟨-, -, -, hread⟩ := fields_of_exec_drw (noFault_of_exec_drw h ht) h
    have hflag : ∀ hit, collisionFlag hit = 0x00 ∨ collisionFlag hit = 0x01 := by decide
    rw [hread]
    exact hflag _
  · intro i s t h hchanged
    obtain ⟨-, -, hreg, -⟩ := frameOfEveryInstruction i s t h
    cases i with
    | cls => exact absurd (hreg 15 trivial) hchanged
    | jp nnn => exact absurd (hreg 15 trivial) hchanged
    | ldImm x nn =>
      by_cases hx : 15 = x
      · exact .inr (.inl ⟨nn, hx ▸ rfl⟩)
      · exact absurd (hreg 15 hx) hchanged
    | addImm x nn =>
      by_cases hx : 15 = x
      · exact .inr (.inr ⟨nn, hx ▸ rfl⟩)
      · exact absurd (hreg 15 hx) hchanged
    | ldI nnn => exact absurd (hreg 15 trivial) hchanged
    | drw x y n => exact .inl ⟨x, y, n, rfl⟩

/-- Settles O35: the second write of the register overwrites the first with the same byte. -/
theorem setImmediateIsIdempotent : Obligations.SetImmediateIsIdempotent := by
  intro s t u x nn ht hu
  cases (exec_ldImm x nn s).symm.trans ht
  cases (exec_ldImm x nn _).symm.trans hu
  have hpc : s.pc + 2 + 2 = s.pc + 4 := BitVec.add_assoc s.pc 2 2
  simp only [Vector.set_set, hpc]

end Sys2Proof
end

-- ==== Proofs: the step cycle (40_step_cycle.md, 44_unrecognized.md, 60_exceptions.md sections 1 to 3) ====
section

namespace Sys2Proof.Machine

open Sys2Proof.Config

/-! ### Checked reads and the fetch -/

/-- The word two bytes make, as the spec writes the number. -/
theorem wordOfBytes_toNat_bigEndian (hi lo : Byte) : (wordOfBytes hi lo).toNat = 256 * hi.toNat + lo.toNat := by
  rw [wordOfBytes_toNat, Nat.mul_comm]

/-- R62: a checked read of two bytes succeeds below 0xFFF, with the big-endian word. -/
theorem memRead2_of_lt {a : Nat} (h : a < 0xFFF) (s : State) :
    s.memRead2 a = .ok (wordOfBytes (s.MEM.read a) (s.MEM.read (a + 1))) :=
  if_neg (by simp only [memLast]; omega)

/-- R62: a checked read of two bytes fails from 0xFFF on, with the lower of its two addresses that is above 0xFFF. -/
theorem memRead2_of_ge {a : Nat} (h : 0xFFF ≤ a) (s : State) :
    s.memRead2 a = .error (if a > memLast then a else a + 1) :=
  if_pos (by simp only [memLast]; omega)

/-- R101: the fetch succeeds up to 0xFFE. -/
theorem fetch_of_le {s : State} (h : s.pc.toNat ≤ 0xFFE) :
    s.fetch = .ok (wordOfBytes (s.MEM.read s.pc.toNat) (s.MEM.read (s.pc.toNat + 1))) :=
  memRead2_of_lt (by omega) s

/-- R101: the fetch fails from 0xFFF on. -/
theorem fetch_of_ge {s : State} (h : 0xFFF ≤ s.pc.toNat) : s.fetch = .error (max s.pc.toNat 0x1000) := by
  obtain ⟨hle, -⟩ | ⟨-, hf⟩ := fetch_cases s
  · omega
  · exact hf

/-! ### The step of a running core, by its fetch and its decode -/

/-- R101, R106: a fetch that fails raises. -/
theorem step_of_fetch_error {s : State} {b : Nat} (hrun : s.HALT = .running) (hf : s.fetch = .error b) :
    step s = .next (s.raise (.outOfBounds b)) := by
  simp only [step, cycle, hrun, hf]

/-- R145: a word that does not decode raises. -/
theorem step_of_decode_error {s : State} {w : Word} {e : DecodeError} (hrun : s.HALT = .running)
    (hf : s.fetch = .ok w) (hd : decode w = .error e) : step s = .next (s.raise (.unrecognizedInstruction s.pc w)) := by
  simp only [step, cycle, hrun, hf, hd]

/-- R104: a word that decodes is executed. -/
theorem step_of_decode {s : State} {w : Word} {i : Instr} (hrun : s.HALT = .running) (hf : s.fetch = .ok w)
    (hd : decode w = .ok i) : step s = exec i s := by
  simp only [step, cycle, hrun, hf, hd]

/-- R100: a running core steps. -/
theorem step_answers_next {s : State} (hrun : s.HALT = .running) : ∃ t, step s = .next t := by
  obtain ⟨b, -, h⟩ | ⟨w, e, -, -, h⟩ | ⟨w, i, -, -, h⟩ := step_cases hrun
  · exact ⟨_, h⟩
  · exact ⟨_, h⟩
  · obtain ⟨t, ht⟩ := exec_answers_next i s
    exact ⟨t, h.trans ht⟩

/-- What a step does, in the terms of its result: it raises in the fetch, the decode or the draw, or it runs an
instruction that leaves the core running. -/
theorem step_next_cases {s t : State} (h : step s = .next t) :
    (∃ b, s.fetch = .error b ∧ t = s.raise (.outOfBounds b)) ∨
    (∃ w, s.fetch = .ok w ∧ decode w = .error (.unrecognized w) ∧ t = s.raise (.unrecognizedInstruction s.pc w)) ∨
    (∃ w x y n b, s.fetch = .ok w ∧ decode w = .ok (.drw x y n) ∧ s.spriteFault n = some b ∧
      t = s.raise (.outOfBounds b)) ∨
    (∃ w i, s.fetch = .ok w ∧ decode w = .ok i ∧ exec i s = .next t ∧ t.HALT = .running) := by
  have hrun : s.HALT = .running := running_of_step_next h
  obtain ⟨b, hf, hs⟩ | ⟨w, e, hf, hd, hs⟩ | ⟨w, i, hf, hd, hs⟩ := step_cases hrun
  · cases hs.symm.trans h
    exact .inl ⟨b, hf, rfl⟩
  · cases hs.symm.trans h
    cases decode_error hd
    exact .inr (.inl ⟨w, hf, hd, rfl⟩)
  · have hx : exec i s = .next t := hs.symm.trans h
    obtain ⟨x, y, n, b, rfl, hb, rfl⟩ | ⟨hhalt, -⟩ := exec_next_cases hx
    · exact .inr (.inr (.inl ⟨w, x, y, n, b, hf, hd, hb, rfl⟩))
    · exact .inr (.inr (.inr ⟨w, i, hf, hd, hx, hhalt.trans hrun⟩))

/-- No step writes memory, the call stack, a timer or the key latch. -/
theorem sameUnwritten_of_step {s t : State} (h : step s = .next t) : s.SameUnwritten t := by
  obtain ⟨b, -, rfl⟩ | ⟨w, -, -, rfl⟩ | ⟨w, x, y, n, b, -, -, -, rfl⟩ | ⟨w, i, -, -, hx, -⟩ := step_next_cases h
  · exact sameUnwritten_raise s _
  · exact sameUnwritten_raise s _
  · exact sameUnwritten_raise s _
  · exact sameUnwritten_of_exec hx

/-- R106: a step that halts raised. -/
theorem eq_raise_of_step_halts {s t : State} {f : CoreFault} (h : step s = .next t) (ht : t.HALT = .halted f) :
    t = s.raise f := by
  obtain ⟨b, -, rfl⟩ | ⟨w, -, -, rfl⟩ | ⟨w, x, y, n, b, -, -, -, rfl⟩ | ⟨w, i, -, -, -, hrun⟩ := step_next_cases h
  · cases ht; rfl
  · cases ht; rfl
  · cases ht; rfl
  · cases hrun.symm.trans ht

/-! ### What a step depends on -/

/-- Two cores that agree on the inputs of a step agree after both raise one fault. -/
theorem sameInputs_raise {s₁ s₂ : State} (h : s₁.SameInputs s₂) (f : CoreFault) :
    (s₁.raise f).SameInputs (s₂.raise f) := by
  obtain ⟨hm, hv, hi, hp, hd, -⟩ := h
  exact ⟨hm, hv, hi, hp, hd, rfl⟩

/-- A draw blits alike in two cores that agree on the inputs of a step. -/
theorem drawn_congr {s₁ s₂ : State} (h : s₁.SameInputs s₂) (x y : RegIx) (n : Rows) :
    s₂.drawn x y n = s₁.drawn x y n := by
  obtain ⟨hm, hv, hi, -, hd, -⟩ := h
  have hx : s₂.startX x = s₁.startX x := by simp only [State.startX, State.getV, hv]
  have hy : s₂.startY y = s₁.startY y := by simp only [State.startY, State.getV, hv]
  rw [State.drawn, State.drawn, hx, hy, blit_congr hm hi hd]

/-- An instruction takes two cores that agree on the inputs of a step to cores that agree on them. -/
theorem exec_congr {s₁ s₂ t₁ : State} {i : Instr} (h : s₁.SameInputs s₂) (hx : exec i s₁ = .next t₁) :
    ∃ t₂, exec i s₂ = .next t₂ ∧ t₁.SameInputs t₂ := by
  have hsame := h
  obtain ⟨hm, hv, hi, hp, hd, hh⟩ := h
  have hpc : s₂.pc + 2 = s₁.pc + 2 := by rw [hp]
  cases i with
  | cls =>
    cases hx
    exact ⟨_, exec_cls s₂, hm, hv, hi, hpc, rfl, hh⟩
  | jp nnn =>
    cases hx
    exact ⟨_, exec_jp nnn s₂, hm, hv, hi, rfl, hd, hh⟩
  | ldImm x nn =>
    cases hx
    exact ⟨_, exec_ldImm x nn s₂, hm, congrArg (·.set x.val nn) hv, hi, hpc, hd, hh⟩
  | addImm x nn =>
    cases hx
    have hset : s₂.V.set x.val (addMod256 (s₂.getV x) nn) = s₁.V.set x.val (addMod256 (s₁.getV x) nn) := by
      simp only [State.getV, hv]
    exact ⟨_, exec_addImm x nn s₂, hm, hset, hi, hpc, hd, hh⟩
  | ldI nnn =>
    cases hx
    exact ⟨_, exec_ldI nnn s₂, hm, hv, rfl, hpc, hd, hh⟩
  | drw x y n =>
    have hfault : s₂.spriteFault n = s₁.spriteFault n := spriteFault_congr hi n
    have hdrawn : s₂.drawn x y n = s₁.drawn x y n := drawn_congr hsame x y n
    cases hf : s₁.spriteFault n with
    | some b =>
      cases (exec_drw_of_fault hf x y).symm.trans hx
      exact ⟨_, exec_drw_of_fault (hfault.trans hf) x y, sameInputs_raise hsame _⟩
    | none =>
      cases (exec_drw_of_noFault hf x y).symm.trans hx
      refine ⟨_, exec_drw_of_noFault (hfault.trans hf) x y, hm, ?_, hi, hpc, ?_, hh⟩
      · simp only [hv, hdrawn]
      · simp only [hdrawn]

/-- R107: a step takes two cores that agree on its inputs to cores that agree on them. -/
theorem step_congr {s₁ s₂ t₁ : State} (h : s₁.SameInputs s₂) (hs : step s₁ = .next t₁) :
    ∃ t₂, step s₂ = .next t₂ ∧ t₁.SameInputs t₂ := by
  have hsame := h
  obtain ⟨hm, -, -, hp, -, hh⟩ := h
  have hrun : s₁.HALT = .running := running_of_step_next hs
  have hrun₂ : s₂.HALT = .running := hh.trans hrun
  have hfetch : s₂.fetch = s₁.fetch := fetch_congr hm hp
  obtain ⟨b, hf, he⟩ | ⟨w, e, hf, hd, he⟩ | ⟨w, i, hf, hd, he⟩ := step_cases hrun
  · cases he.symm.trans hs
    exact ⟨_, step_of_fetch_error hrun₂ (hfetch.trans hf), sameInputs_raise hsame _⟩
  · cases he.symm.trans hs
    refine ⟨_, step_of_decode_error hrun₂ (hfetch.trans hf) hd, ?_⟩
    rw [hp]
    exact sameInputs_raise hsame _
  · obtain ⟨t₂, hx, ht⟩ := exec_congr hsame (he.symm.trans hs)
    exact ⟨t₂, (step_of_decode hrun₂ (hfetch.trans hf) hd).trans hx, ht⟩

/-- A state is its inputs of a step and its fields that no step writes. -/
theorem eq_of_sameInputs_of_sameUnwritten {s t : State} (hin : s.SameInputs t) (hun : s.SameUnwritten t) : t = s := by
  obtain ⟨hm, hv, hi, hp, hd, hh⟩ := hin
  obtain ⟨-, hstack, hsp, hdt, hst, hkey⟩ := hun
  cases s
  cases t
  rw [State.mk.injEq]
  exact ⟨hm, hv, hi, hp, hstack, hsp, hdt, hst, hkey, hd, hh⟩

/-- R31, R176: a step after a key update is the step with the update after it. -/
theorem step_setKeys {s t : State} (h : step s = .next t) (k : Vector Bool 16) :
    step (s.setKeys k) = .next (t.setKeys k) := by
  have hin : s.SameInputs (s.setKeys k) := ⟨rfl, rfl, rfl, rfl, rfl, rfl⟩
  obtain ⟨t₂, ht₂, hsame⟩ := step_congr hin h
  obtain ⟨hm, hstack, hsp, hdt, hst, -⟩ := sameUnwritten_of_step h
  obtain ⟨hm₂, hstack₂, hsp₂, hdt₂, hst₂, hkey₂⟩ := sameUnwritten_of_step ht₂
  have hun : (t.setKeys k).SameUnwritten t₂ :=
    ⟨hm₂.trans hm.symm, hstack₂.trans hstack.symm, hsp₂.trans hsp.symm, hdt₂.trans hdt.symm, hst₂.trans hst.symm, hkey₂⟩
  rw [ht₂, eq_of_sameInputs_of_sameUnwritten (s := t.setKeys k) hsame hun]

/-! ### The program counter -/

/-- R27: the advance of a `pc` that a fetch succeeded at does not wrap. -/
theorem pc_add_two_toNat {s : State} (h : s.pc.toNat ≤ 0xFFE) : (s.pc + 2).toNat = s.pc.toNat + 2 := by
  rw [BitVec.toNat_add]
  exact Nat.mod_eq_of_lt (show s.pc.toNat + 2 < 65536 by omega)

/-- A `pc` inside memory is its low twelve bits, extended. -/
theorem zext16_setWidth_pc {s : State} (h : s.pc.toNat ≤ 0xFFE) : zext16 (s.pc.setWidth 12) = s.pc := by
  apply BitVec.eq_of_toNat_eq
  rw [zext16_toNat, BitVec.toNat_setWidth]
  omega

/-- A word of sixteen bits is itself in the opcode table's numbering. -/
theorem tableWord_toNat (w : Word) : tableWord 16 w.toNat = w := by
  apply BitVec.eq_of_toNat_eq
  have := w.isLt
  rw [tableWord, BitVec.toNat_ofNat]
  omega

end Sys2Proof.Machine

namespace Sys2Proof

open Sys2Proof.Machine

/-! ### The obligations -/

/-- Settles O8, from the fetch inside memory. -/
theorem stepRunsDecodedInstruction : Obligations.StepRunsDecodedInstruction := fun _ _ hrun hpc hd =>
  step_of_decode hrun (fetch_of_le hpc) hd

/-- Settles O9, from the fetch inside memory and the number its two bytes make. -/
theorem fetchIsBigEndian : Obligations.FetchIsBigEndian := fun _ hpc =>
  ⟨_, fetch_of_le hpc, wordOfBytes_toNat_bigEndian _ _⟩

/-- Settles O10: the range check of each read decides its clause. -/
theorem checkedReadsNeverWrap : Obligations.CheckedReadsNeverWrap := by
  intro s a
  refine ⟨?_, ?_, ?_, ?_, ?_⟩
  · intro h
    obtain ⟨hgt, -⟩ | ⟨-, hread⟩ := memRead1_cases s a
    · omega
    · exact hread
  · intro h
    obtain ⟨-, hread⟩ | ⟨hle, -⟩ := memRead1_cases s a
    · exact hread
    · omega
  · intro h
    exact ⟨_, memRead2_of_lt h s, wordOfBytes_toNat_bigEndian _ _⟩
  · rintro rfl
    rfl
  · intro h
    rw [memRead2_of_ge (by omega), if_pos h]

/-- Settles O11, from the fetch past memory. -/
theorem fetchPastMemoryHalts : Obligations.FetchPastMemoryHalts := fun _ hrun hpc =>
  step_of_fetch_error hrun (fetch_of_ge hpc)

/-- Settles O12, from the words that no row of the opcode map matches. -/
theorem unrecognizedWordHalts : Obligations.UnrecognizedWordHalts := fun _ _ hrun hf hcls hclass =>
  step_of_decode_error hrun hf (decode_eq_error hcls hclass)

/-- Settles O13: a running core answers a next state, so only a halted one stops. -/
theorem onlyHaltedCoreHasNoStep : Obligations.OnlyHaltedCoreHasNoStep := by
  intro s f
  refine ⟨?_, step_of_halted⟩
  intro h
  cases hh : s.HALT with
  | running =>
    obtain ⟨t, ht⟩ := step_answers_next hh
    cases ht.symm.trans h
  | halted g =>
    cases (step_of_halted hh).symm.trans h
    rfl

/-- Settles O14, from the three ways a running core steps. -/
theorem runningCoreAlwaysSteps : Obligations.RunningCoreAlwaysSteps := fun _ => step_answers_next

/-- Settles O15: a step that halts raised in the state before it. -/
theorem faultingStepIsPrecise : Obligations.FaultingStepIsPrecise := fun _ _ _ => eq_raise_of_step_halts

/-- Settles O16: the way the step took gives the clause, and each clause fixes the way. -/
theorem faultsInPriorityOrder : Obligations.FaultsInPriorityOrder := by
  intro s f hrun
  constructor
  · rintro ⟨t, hs, ht⟩
    obtain ⟨b, hf, rfl⟩ | ⟨w, hf, hd, rfl⟩ | ⟨w, x, y, n, b, hf, hd, hb, rfl⟩ | ⟨w, i, -, -, -, hrun'⟩ :=
      step_next_cases hs
    · cases ht
      obtain ⟨-, hok⟩ | ⟨hge, herr⟩ := fetch_cases s
      · cases hf.symm.trans hok
      · cases hf.symm.trans herr
        exact .inl ⟨hge, rfl⟩
    · cases ht
      exact .inr ⟨w, hf, .inl ⟨hd, rfl⟩⟩
    · cases ht
      obtain ⟨hnone, -⟩ | ⟨hsome, hn, hI⟩ := spriteFault_cases s n
      · cases hb.symm.trans hnone
      · cases hb.symm.trans hsome
        exact .inr ⟨w, hf, .inr ⟨x, y, n, hd, hn, by omega, rfl⟩⟩
    · cases hrun'.symm.trans ht
  · rintro (⟨hpc, rfl⟩ | ⟨w, hf, ⟨hd, rfl⟩ | ⟨x, y, n, hd, hn, hI, rfl⟩⟩)
    · exact ⟨_, step_of_fetch_error hrun (fetch_of_ge hpc), rfl⟩
    · exact ⟨_, step_of_decode_error hrun hf hd, rfl⟩
    · exact ⟨_, (step_of_decode hrun hf hd).trans (exec_drw_of_fault (spriteFault_eq_some hn hI) x y), rfl⟩

/-- Settles O17, from the three ways a step raises and the frame of an instruction. -/
theorem noStepWritesMemoryStackTimersKeys : Obligations.NoStepWritesMemoryStackTimersKeys := fun _ _ =>
  sameUnwritten_of_step

/-- Settles O18: fetch, decode and dispatch read the same fields in both cores. -/
theorem stepIgnoresTimersKeysStack : Obligations.StepIgnoresTimersKeysStack := fun _ _ _ => step_congr

/-- Settles O19: the jump sets `pc`, and every other instruction that completes advances a `pc` that cannot wrap. -/
theorem stepLeavesPcAsTableSays : Obligations.StepLeavesPcAsTableSays := by
  intro s t w i hf hd hs ht
  have hadvance : (s.pc + 2).toNat = s.pc.toNat + 2 := pc_add_two_toNat (fetch_ok_pc hf)
  have hx : exec i s = .next t := (step_of_decode (running_of_step_next hs) hf hd).symm.trans hs
  cases i with
  | cls => cases hx; exact hadvance
  | jp nnn => cases hx; exact zext16_toNat nnn
  | ldImm x nn => cases hx; exact hadvance
  | addImm x nn => cases hx; exact hadvance
  | ldI nnn => cases hx; exact hadvance
  | drw x y n =>
    cases (exec_drw_of_noFault (noFault_of_exec_drw hx ht) x y).symm.trans hx
    exact hadvance

/-- Settles O20: the fetch gives the word that was placed, which decodes to the instruction. -/
theorem placedInstructionRunsNext : Obligations.PlacedInstructionRunsNext := by
  intro s i hwf
  rw [State.withFetchWord, tableWord_toNat]
  exact step_of_decode rfl (fetch_placeWord hwf (encode i)) (decode_encode i)

/-- Settles O34: the target is the `pc` the word was fetched from, and a jump writes nothing else. -/
theorem jumpToSelfIsFixedPoint : Obligations.JumpToSelfIsFixedPoint := by
  intro s w hrun hf hd
  rw [step_of_decode hrun hf hd, exec_jp, zext16_setWidth_pc (fetch_ok_pc hf)]

/-- Settles O43: the key latch is no input of a step and no step writes it. -/
theorem setKeysChangesKeysAlone : Obligations.SetKeysChangesKeysAlone := fun _ k =>
  ⟨rfl, fun _ h => step_setKeys h k⟩

end Sys2Proof
end

-- ==== Proofs: the invariant of the core (10_state.md sections 14 and 15) ====
section

namespace Sys2Proof.Machine

open Sys2Proof.Config

/-! ### The record of a latched fault -/

/-- A running core has nothing recorded. -/
theorem haltRecordOk_of_running {s : State} (h : s.HALT = .running) : s.haltRecordOk := by
  rw [State.haltRecordOk, h]
  trivial

/-- Raising leaves `pc`, memory and `I` alone, so what is recorded of an address out of bounds speaks of the state
before the step. -/
theorem haltRecordOk_raise_outOfBounds {s : State} {b : Nat} :
    (s.raise (.outOfBounds b)).haltRecordOk ↔
      b = 0x1000 ∧ (s.fetch = .error b ∨
        ∃ w x y n, s.fetch = .ok w ∧ decode w = .ok (.drw x y n) ∧ s.spriteFault n = some b) :=
  Iff.rfl

/-- What is recorded of an unrecognized word speaks of the state before the step too. -/
theorem haltRecordOk_raise_unrecognized {s : State} {a w : Word} :
    (s.raise (.unrecognizedInstruction a w)).haltRecordOk ↔
      a = s.pc ∧ s.fetch = .ok w ∧ decode w = .error (.unrecognized w) :=
  Iff.rfl

/-! ### The invariant is kept -/

/-- R101: while `pc` is at most 0x1000 a fetch fails at 0x1000 alone. -/
theorem fetch_error_address {s : State} {b : Nat} (hpc : s.pc.toNat ≤ 0x1000) (h : s.fetch = .error b) :
    b = 0x1000 := by
  obtain ⟨-, hok⟩ | ⟨hge, herr⟩ := fetch_cases s
  · cases h.symm.trans hok
  · cases h.symm.trans herr
    omega

/-- R138: while `I` is an address the sprite check fails at 0x1000 alone. -/
theorem spriteFault_address {s : State} {n : Rows} {b : Nat} (hI : s.I.toNat ≤ memLast)
    (h : s.spriteFault n = some b) : b = 0x1000 := by
  obtain ⟨hnone, -⟩ | ⟨hsome, -, -⟩ := spriteFault_cases s n
  · cases h.symm.trans hnone
  · cases h.symm.trans hsome
    simp only [memLast] at hI
    omega

/-- Raising keeps the invariant when the record agrees with the state. -/
theorem inv_raise {s : State} {f : CoreFault} (h : s.Inv) (hrec : (s.raise f).haltRecordOk) : (s.raise f).Inv where
  memory_canonical := h.memory_canonical
  stack_pointer_legal := h.stack_pointer_legal
  index_is_address := h.index_is_address
  pc_bound := h.pc_bound
  halt_record := hrec

/-- R78: an immediate of twelve bits is an address. -/
theorem zext16_le_memLast (nnn : Addr12) : (zext16 nnn).toNat ≤ memLast := by
  rw [zext16_toNat]
  exact Nat.le_of_lt_succ nnn.isLt

/-- An instruction that completes after a fetch keeps the invariant: memory and `SP` are not written, and `pc` and `I`
are advanced by two, loaded with a twelve-bit immediate or left. -/
theorem inv_of_exec {i : Instr} {s t : State} (h : s.Inv) (hpc : s.pc.toNat ≤ 0xFFE) (hx : exec i s = .next t)
    (hrun : t.HALT = .running) : t.Inv := by
  obtain ⟨x, y, n, b, -, -, rfl⟩ | ⟨-, ⟨hmem, -, hsp, -⟩, htpc, htI⟩ := exec_next_cases hx
  · cases hrun
  · refine ⟨?_, ?_, ?_, ?_, haltRecordOk_of_running hrun⟩
    · rw [hmem]
      exact h.memory_canonical
    · rw [hsp]
      exact h.stack_pointer_legal
    · obtain hI | ⟨nnn, hI⟩ := htI
      · rw [hI]
        exact h.index_is_address
      · rw [hI]
        exact zext16_le_memLast nnn
    · obtain hp | ⟨nnn, hp⟩ := htpc
      · rw [hp, pc_add_two_toNat hpc]
        omega
      · rw [hp]
        exact (zext16_le_memLast nnn).trans (by decide)

/-- A step keeps the invariant of the core. -/
theorem inv_of_step {s t : State} (h : s.Inv) (hs : step s = .next t) : t.Inv := by
  obtain ⟨b, hf, rfl⟩ | ⟨w, hf, hd, rfl⟩ | ⟨w, x, y, n, b, hf, hd, hb, rfl⟩ | ⟨w, i, hf, -, hx, hrun⟩ :=
    step_next_cases hs
  · exact inv_raise h (haltRecordOk_raise_outOfBounds.mpr ⟨fetch_error_address h.pc_bound hf, .inl hf⟩)
  · exact inv_raise h (haltRecordOk_raise_unrecognized.mpr ⟨rfl, hf, hd⟩)
  · exact inv_raise h (haltRecordOk_raise_outOfBounds.mpr
      ⟨spriteFault_address h.index_is_address hb, .inr ⟨w, x, y, n, hf, hd, hb⟩⟩)
  · exact inv_of_exec h (fetch_ok_pc hf) hx hrun

/-! ### Canonical memories as data -/

namespace Memory

/-- The first entry of a canonical memory shows: no memory canonical from above it reads the same there. -/
theorem read_head_ne {lo lo' k : Nat} {c : Byte} {rest m : Memory} (h : wfFrom lo ((k, c) :: rest) = true)
    (hm : wfFrom lo' m = true) (hk : k < lo') : Memory.read ((k, c) :: rest) k ≠ Memory.read m k := by
  obtain ⟨-, -, hc, -⟩ := wfFrom_cons.mp h
  rw [read_cons, if_pos rfl, read_of_lt hm hk]
  exact hc

/-- A canonical memory without its first entry reads as the background there and below, and as before above. -/
theorem read_tail {lo k : Nat} {c : Byte} {rest : Memory} (h : wfFrom lo ((k, c) :: rest) = true) (a : Nat) :
    Memory.read rest a = if a ≤ k then background a else Memory.read ((k, c) :: rest) a := by
  obtain ⟨-, -, -, hrest⟩ := wfFrom_cons.mp h
  split
  · next hle => exact read_of_lt hrest (by omega)
  · next hgt => rw [read_cons, if_neg (by omega)]

/-- Memories canonical from an address on that read the same everywhere are the same list, entry by entry. -/
theorem eq_of_read_eq {lo : Nat} {m m' : Memory} (h : wfFrom lo m = true) (h' : wfFrom lo m' = true)
    (hread : ∀ a, m.read a = m'.read a) : m = m' := by
  induction m generalizing lo m' with
  | nil =>
    cases m' with
    | nil => rfl
    | cons e' rest' =>
      obtain ⟨k', c'⟩ := e'
      exact absurd (hread k').symm (read_head_ne h' (wfFrom_nil (k' + 1)) (by omega))
  | cons e rest ih =>
    obtain ⟨k, c⟩ := e
    cases m' with
    | nil => exact absurd (hread k) (read_head_ne h (wfFrom_nil (k + 1)) (by omega))
    | cons e' rest' =>
      obtain ⟨k', c'⟩ := e'
      obtain ⟨-, hk, hc, hrest⟩ := wfFrom_cons.mp h
      obtain ⟨-, hk', hc', hrest'⟩ := wfFrom_cons.mp h'
      have hle : k' ≤ k := by
        by_contra hlt
        exact read_head_ne h (wfFrom_cons.mpr ⟨le_rfl, hk', hc', hrest'⟩) (by omega) (hread k)
      have hge : k ≤ k' := by
        by_contra hlt
        exact read_head_ne h' (wfFrom_cons.mpr ⟨le_rfl, hk, hc, hrest⟩) (by omega) (hread k').symm
      obtain rfl : k = k' := by omega
      have hbyte : c = c' := by
        have := hread k
        rwa [read_cons, read_cons, if_pos rfl, if_pos rfl] at this
      have htail : rest = rest' := ih hrest hrest' fun a => by rw [read_tail h, read_tail h', hread]
      rw [hbyte, htail]

end Memory

end Sys2Proof.Machine

namespace Sys2Proof

open Sys2Proof.Machine

/-! ### The obligations -/

/-- Settles O36, by the way the step took. -/
theorem stepKeepsInvariant : Obligations.StepKeepsInvariant := fun _ _ => inv_of_step

/-- Settles O37, clause by clause. -/
theorem resetMeetsInvariant : Obligations.ResetMeetsInvariant where
  memory_canonical := Memory.wf_reset
  stack_pointer_legal := by decide
  index_is_address := by decide
  pc_bound := by decide
  halt_record := haltRecordOk_of_running rfl

/-- Settles O38: the registers hold what the reset state lists, and memory reads as the background. -/
theorem resetValues : Obligations.ResetValues := by
  refine ⟨by decide, rfl, rfl, rfl, by decide, rfl, rfl, by decide, Display.get_clear, rfl, ?_, by decide⟩
  intro a ha
  exact background_outside ha

/-- Settles O39, by induction on the entries. -/
theorem canonicalMemoriesAreEqualData : Obligations.CanonicalMemoriesAreEqualData := fun _ _ =>
  Memory.eq_of_read_eq

end Sys2Proof
end

-- ==== Proofs: reset and boot (70_reset_and_hazards.md, 20_memory.md sections 4 and 5) ====
section

namespace Sys2Proof.Machine

open Sys2Proof.Config

/-! ### The font -/

/-- The memory after `initializeFont` (R57). -/
theorem initializeFont_MEM (font : FontParam) (s : State) :
    (s.initializeFont font).MEM = s.MEM.writeBytes 0x050 (fontTableBytes (fontTable font)) := rfl

/-- `initializeFont` writes memory alone. -/
theorem initializeFont_eq (font : FontParam) (s : State) :
    s.initializeFont font = { s with MEM := (s.initializeFont font).MEM } := rfl

/-- The 80 bytes of the font stay inside memory, so it stays canonical. -/
theorem wf_initializeFont (font : FontParam) {s : State} (h : s.MEM.wf = true) :
    (s.initializeFont font).MEM.wf = true :=
  Memory.wf_writeBytes h (by rw [length_fontTableBytes]; decide)

/-- R56: byte `k` of glyph `d` is read at `0x050 + 5 * d + k`. -/
theorem read_initializeFont_glyph (font : FontParam) {s : State} (h : s.MEM.wf = true) (d : Fin 16) (k : Fin 5) :
    (s.initializeFont font).MEM.read (0x050 + (5 * d.val + k.val)) = (fontTable font)[d][k] := by
  have hlen : (fontTableBytes (fontTable font)).length = 80 := length_fontTableBytes _
  have hin : 5 * d.val + k.val < (fontTableBytes (fontTable font)).length := by omega
  rw [initializeFont_MEM, Memory.read_writeBytes_inside h (by omega) _ hin, fontTableBytes_getElem]

/-- Outside the font region `initializeFont` leaves memory alone. -/
theorem read_initializeFont_outside (font : FontParam) (s : State) {a : Nat} (ha : a < 0x050 ∨ 0x09F < a) :
    (s.initializeFont font).MEM.read a = s.MEM.read a := by
  rw [initializeFont_MEM]
  exact Memory.read_writeBytes_of_outside _ _ (by rw [length_fontTableBytes]; omega)

/-- Glyph `d + 1` is entry `d` of the parameter `FONT[1..15]`. -/
theorem read_initializeFont_param (font : FontParam) {s : State} (h : s.MEM.wf = true) (d : Fin 15) (k : Fin 5) :
    (s.initializeFont font).MEM.read (0x050 + 5 * (d.val + 1) + k.val) = font[d][k] := by
  have hread := read_initializeFont_glyph font h ⟨d.val + 1, by omega⟩ k
  have hglyph : (fontTable font)[d.val + 1] = font[d.val] := fontTable_succ font d.val (by omega)
  rw [Nat.add_assoc, hread]
  exact congrArg (·[k]) hglyph

/-- What reads as glyph 0 from 0x050 on reads as the bytes the source prints (R58). -/
theorem map_eq_glyph0 {f : Nat → Byte} (h : ∀ k : Fin 5, f (0x050 + k.val) = glyph0[k]) :
    [0x050, 0x051, 0x052, 0x053, 0x054].map f = [0xF0, 0x90, 0x90, 0x90, 0xF0] := by
  have hmap : [0x050, 0x051, 0x052, 0x053, 0x054].map f = List.ofFn fun k : Fin 5 => f (0x050 + k.val) := by
    simp only [List.map_cons, List.map_nil, List.ofFn_succ, List.ofFn_zero]
    rfl
  rw [hmap, funext h]
  rfl

/-- Glyph 0 is the constant, whatever the parameter. -/
theorem read_initializeFont_glyph0 (font : FontParam) {s : State} (h : s.MEM.wf = true) (k : Fin 5) :
    (s.initializeFont font).MEM.read (0x050 + k.val) = glyph0[k] := by
  have hread := read_initializeFont_glyph font h 0 k
  rwa [show 5 * (0 : Fin 16).val + k.val = k.val from Nat.zero_add _] at hread

/-- The default font is the background of memory (R38). -/
theorem read_initializeFont_default {s : State} (h : s.MEM.wf = true) {a : Nat} (ha : 0x050 ≤ a ∧ a ≤ 0x09F) :
    (s.initializeFont fontDefault).MEM.read a = Memory.background a := by
  have hsplit : a = 0x050 + (5 * ((a - 0x050) / 5) + (a - 0x050) % 5) := by omega
  have hread := read_initializeFont_glyph fontDefault h ⟨(a - 0x050) / 5, by omega⟩ ⟨(a - 0x050) % 5, by omega⟩
  rw [← hsplit] at hread
  rw [hread, Memory.background, fontByte, dif_pos ha]
  rfl

/-! ### The load -/

/-- R60: a ROM that fits is copied to 0x200. -/
theorem load_of_le {rom : List Byte} (h : rom.length ≤ 3584) (s : State) :
    s.load (.bytes rom) 0x200 = .ok (s.setMem (s.MEM.writeBytes 0x200 rom)) := by
  have hfits : ¬ rom.length + 0x200 > memSize := by simp only [memSize]; omega
  simp only [State.load, if_neg hfits]

/-- R60: a ROM that does not fit fails and writes nothing. -/
theorem load_of_gt {rom : List Byte} (h : 3584 < rom.length) (s : State) :
    s.load (.bytes rom) 0x200 = .error .romTooLarge := by
  have hlong : rom.length + 0x200 > memSize := by simp only [memSize]; omega
  simp only [State.load, if_pos hlong]

/-- A ROM that fits stays inside memory, so memory stays canonical. -/
theorem wf_writeBytes_rom {m : Memory} {rom : List Byte} (hm : m.wf = true) (h : rom.length ≤ 3584) :
    (m.writeBytes 0x200 rom).wf = true :=
  Memory.wf_writeBytes hm (by omega)

/-! ### The reset event -/

theorem wf_zeroed : State.zeroed.MEM.wf = true := Memory.wf_zeros

/-- R190: after the reset event every byte of memory is 0x00, the font region among them. -/
theorem read_zeroed (a : Nat) : State.zeroed.MEM.read a = 0x00 := by
  have hmem : State.zeroed.MEM = Memory.writeBytes [] 0x050 (List.replicate 80 0x00) := rfl
  rw [hmem]
  by_cases ha : a < 0x050 ∨ 0x09F < a
  · rw [Memory.read_writeBytes_of_outside _ _ (by rw [List.length_replicate]; omega), Memory.read_nil,
      background_outside ha]
  · have hread := Memory.read_writeBytes_inside (m := []) (a := 0x050) (bs := List.replicate 80 0x00) rfl
      (by rw [List.length_replicate]; decide) (a - 0x050) (by rw [List.length_replicate]; omega)
    rwa [show 0x050 + (a - 0x050) = a by omega, List.getElem_replicate] at hread

/-! ### Boot -/

/-- The core when boot is complete (R193): the font and the ROM written into zeroed memory. -/
def State.booted (font : FontParam) (rom : List Byte) : State :=
  (State.zeroed.initializeFont font).setMem ((State.zeroed.initializeFont font).MEM.writeBytes 0x200 rom)

/-- The load of boot completes it. -/
theorem load_booted (font : FontParam) {rom : List Byte} (h : rom.length ≤ 3584) :
    (State.zeroed.initializeFont font).load (.bytes rom) 0x200 = .ok (State.booted font rom) :=
  load_of_le h _

/-- Boot in its order leads to the booted core. -/
theorem run_boot (font : FontParam) {rom : List Byte} (h : rom.length ≤ 3584) :
    System.run font [.initializeFont, .load (.bytes rom) 0x200] System.initial =
      some ⟨.executing, State.booted font rom⟩ := by
  have hload : System.loadEvent (.bytes rom) 0x200 (State.zeroed.initializeFont font) =
      some ⟨.executing, State.booted font rom⟩ := by
    rw [System.loadEvent, if_pos rfl, load_booted font h]
  simp only [System.run, System.apply, System.initial, hload]

/-- R194: the launch state is the booted core with the timers a claim chooses. -/
theorem launch_eq (font : FontParam) {rom : List Byte} (h : rom.length ≤ 3584) (dt st : Byte) :
    State.launch font rom dt st = .ok { State.booted font rom with DT := dt, ST := st } := by
  unfold State.launch
  rw [load_booted font h]
  rfl

theorem wf_booted (font : FontParam) {rom : List Byte} (h : rom.length ≤ 3584) :
    (State.booted font rom).MEM.wf = true :=
  wf_writeBytes_rom (wf_initializeFont font wf_zeroed) h

/-- The ROM is read from 0x200 on. -/
theorem read_booted_rom (font : FontParam) {rom : List Byte} (h : rom.length ≤ 3584) {k : Nat} (hk : k < rom.length) :
    (State.booted font rom).MEM.read (0x200 + k) = rom[k] :=
  Memory.read_writeBytes_inside (wf_initializeFont font wf_zeroed) (by omega) k hk

/-- Outside the ROM memory is as `initializeFont` left it. -/
theorem read_booted_outside (font : FontParam) (rom : List Byte) {a : Nat} (ha : a < 0x200 ∨ 0x200 + rom.length ≤ a) :
    (State.booted font rom).MEM.read a = (State.zeroed.initializeFont font).MEM.read a :=
  Memory.read_writeBytes_of_outside _ _ ha

/-- Outside the ROM and the font region memory is 0x00. -/
theorem read_booted_zero (font : FontParam) (rom : List Byte) {a : Nat}
    (ha : a < 0x050 ∨ (0x09F < a ∧ a < 0x200) ∨ 0x200 + rom.length ≤ a) :
    (State.booted font rom).MEM.read a = 0x00 := by
  rw [read_booted_outside font rom (by omega), read_initializeFont_outside font _ (by omega), read_zeroed]

/-- R175: before boot is complete no step, tick or key update is enabled. -/
theorem apply_eq_none_in_boot (font : FontParam) {y : System} (h : y.phase ≠ .executing) :
    y.apply font .step = none ∧ y.apply font .tick = none ∧ ∀ k, y.apply font (.setKeys k) = none := by
  obtain ⟨p, c⟩ := y
  cases p with
  | created => exact ⟨rfl, rfl, fun _ => rfl⟩
  | fontReady => exact ⟨rfl, rfl, fun _ => rfl⟩
  | executing => exact absurd rfl h
  | dead e => exact ⟨rfl, rfl, fun _ => rfl⟩

/-- R193: the font is initialized once, right after a reset. -/
theorem apply_initializeFont_eq_none (font : FontParam) {y : System} (h : y.phase ≠ .created) :
    y.apply font .initializeFont = none := by
  obtain ⟨p, c⟩ := y
  cases p with
  | created => exact absurd rfl h
  | fontReady => rfl
  | executing => rfl
  | dead e => rfl

end Sys2Proof.Machine

namespace Sys2Proof

open Sys2Proof.Machine

/-! ### The obligations -/

/-- Settles O45: the bytes written are read back, and only their region is written. -/
theorem initializeFontWritesTable : Obligations.InitializeFontWritesTable := by
  refine ⟨fun font s hwf => ⟨?_, ?_, ?_, ?_, rfl⟩, fun font _ => apply_initializeFont_eq_none font⟩
  · exact map_eq_glyph0 (read_initializeFont_glyph0 font hwf)
  · exact read_initializeFont_param font hwf
  · exact fun _ => read_initializeFont_outside font s
  · exact wf_initializeFont font hwf

/-- Settles O46: the length decides, and a ROM that fits is read back where it was copied to. -/
theorem loadCopiesOrFails : Obligations.LoadCopiesOrFails := by
  intro s rom hwf
  refine ⟨fun hlen => ⟨_, load_of_le hlen s, ?_, ?_, ?_, rfl⟩, fun hlen => load_of_gt hlen s, rfl⟩
  · intro k hk
    exact Memory.read_writeBytes_inside hwf (by omega) k hk
  · intro a ha
    exact Memory.read_writeBytes_of_outside s.MEM rom ha
  · exact wf_writeBytes_rom hwf hlen

/-- Settles O47: the event forgets the state, and what it leaves reads 0x00 everywhere. -/
theorem resetEventZeroesEverything : Obligations.ResetEventZeroesEverything := fun _ =>
  ⟨read_zeroed, wf_zeroed, rfl⟩

/-- Settles O48: the memory after both reads as the background everywhere, so as a canonical memory it lists nothing. -/
theorem fontedBootIsResetState : Obligations.FontedBootIsResetState := by
  intro s
  have hread : ∀ a, (State.zeroed.initializeFont fontDefault).MEM.read a = Memory.read [] a := by
    intro a
    by_cases ha : a < 0x050 ∨ 0x09F < a
    · rw [read_initializeFont_outside _ _ ha, read_zeroed, Memory.read_nil, background_outside ha]
    · exact read_initializeFont_default wf_zeroed (by omega)
  have hmem : (State.zeroed.initializeFont fontDefault).MEM = [] :=
    canonicalMemoriesAreEqualData _ _ (wf_initializeFont fontDefault wf_zeroed) rfl hread
  calc s.resetEvent.initializeFont fontDefault
    _ = { State.zeroed with MEM := (State.zeroed.initializeFont fontDefault).MEM } :=
      initializeFont_eq fontDefault State.zeroed
    _ = { State.zeroed with MEM := [] } := by rw [hmem]
    _ = State.reset := rfl

/-- Settles O49: the two events of boot lead to the booted core, whose memory is read region by region. -/
theorem bootLeadsToLaunchState : Obligations.BootLeadsToLaunchState := by
  refine ⟨fun font rom hlen => ⟨State.booted font rom, run_boot font hlen, launch_eq font hlen, rfl,
    wf_booted font hlen, ?_, ?_, ?_, ?_⟩, fun font _ => apply_eq_none_in_boot font⟩
  · refine map_eq_glyph0 fun k => ?_
    rw [read_booted_outside font rom (by omega), read_initializeFont_glyph0 font wf_zeroed]
  · intro d k
    rw [read_booted_outside font rom (by omega), read_initializeFont_param font wf_zeroed]
  · exact fun _ => read_booted_rom font hlen
  · exact fun _ => read_booted_zero font rom

end Sys2Proof
end

-- ==== Proofs: the core under its host (60_exceptions.md, 10_state.md section 14) ====
section

namespace Sys2Proof.Machine

open Sys2Proof.Config

/-! ### Updates that keep the invariant of the core -/

/-- An update of fields that the invariant does not speak of keeps it. -/
theorem inv_congr {s t : State} (h : s.Inv) (hm : t.MEM = s.MEM) (hsp : t.SP = s.SP) (hI : t.I = s.I)
    (hpc : t.pc = s.pc) (hh : t.HALT = s.HALT) : t.Inv where
  memory_canonical := hm ▸ h.memory_canonical
  stack_pointer_legal := hsp ▸ h.stack_pointer_legal
  index_is_address := hI ▸ h.index_is_address
  pc_bound := hpc ▸ h.pc_bound
  halt_record := haltRecordOk_congr hm hpc hI hh h.halt_record

/-- A canonical memory put into a running core keeps the invariant. -/
theorem inv_setMem {s : State} {m : Memory} (h : s.Inv) (hrun : s.HALT = .running) (hm : m.wf = true) :
    (s.setMem m).Inv where
  memory_canonical := hm
  stack_pointer_legal := h.stack_pointer_legal
  index_is_address := h.index_is_address
  pc_bound := h.pc_bound
  halt_record := haltRecordOk_of_running hrun

/-- The state the reset event leaves meets the invariant. -/
theorem inv_zeroed : State.zeroed.Inv where
  memory_canonical := wf_zeroed
  stack_pointer_legal := by decide
  index_is_address := by decide
  pc_bound := by decide
  halt_record := haltRecordOk_of_running rfl

namespace System

/-! ### The invariant of the system -/

/-- The system right after a reset meets the invariant. -/
theorem inv_initial : System.initial.Inv where
  core_inv := inv_zeroed
  stack_pointer_zero := rfl
  stack_zero := by decide
  delay_timer_zero := rfl
  sound_timer_zero := rfl
  running_in_boot _ := rfl

/-- A memory that boot writes keeps the invariant, in whatever phase that leaves the system. -/
theorem inv_setMem {y : System} (h : y.Inv) (hboot : y.phase ≠ .executing) {m : Memory} (hm : m.wf = true)
    (p : Phase) : (System.mk p (y.core.setMem m)).Inv where
  core_inv := Machine.inv_setMem h.core_inv (h.running_in_boot hboot) hm
  stack_pointer_zero := h.stack_pointer_zero
  stack_zero := h.stack_zero
  delay_timer_zero := h.delay_timer_zero
  sound_timer_zero := h.sound_timer_zero
  running_in_boot _ := h.running_in_boot hboot

/-- A load keeps the invariant: it boots the core, or leaves it as it was. -/
theorem inv_of_loadEvent {y z : System} {src : RomSource} {off : Nat} (h : y.Inv) (hphase : y.phase = .fontReady)
    (hz : System.loadEvent src off y.core = some z) : z.Inv := by
  have hboot : y.phase ≠ .executing := by rw [hphase]; exact nofun
  obtain ⟨-, ⟨rom, hlen, rfl⟩ | ⟨e, rfl⟩⟩ := loadEvent_some hz
  · exact inv_setMem h hboot (wf_writeBytes_rom h.core_inv.memory_canonical hlen) .executing
  · exact inv_setMem h hboot h.core_inv.memory_canonical (.dead e)

/-- A step keeps the invariant: it keeps that of the core, and writes neither the call stack nor a timer. -/
theorem inv_of_step {y : System} {c : State} (h : y.Inv) (hs : step y.core = .next c) :
    (System.mk .executing c).Inv := by
  obtain ⟨-, hstack, hsp, hdt, hst, -⟩ := sameUnwritten_of_step hs
  refine ⟨Machine.inv_of_step h.core_inv hs, ?_, ?_, ?_, ?_, fun hne => absurd rfl hne⟩
  · exact hsp.trans h.stack_pointer_zero
  · intro k
    rw [show (System.mk .executing c).core.STACK = y.core.STACK from hstack]
    exact h.stack_zero k
  · exact hdt.trans h.delay_timer_zero
  · exact hst.trans h.sound_timer_zero

/-- A tick keeps the invariant: a timer at 0 stays at 0 (R170). -/
theorem inv_tick {y : System} (h : y.Inv) : (System.mk .executing y.core.tick).Inv where
  core_inv := inv_congr h.core_inv rfl rfl rfl rfl rfl
  stack_pointer_zero := h.stack_pointer_zero
  stack_zero := h.stack_zero
  delay_timer_zero := congrArg countDown h.delay_timer_zero
  sound_timer_zero := congrArg countDown h.sound_timer_zero
  running_in_boot hne := absurd rfl hne

/-- A key update keeps the invariant. -/
theorem inv_setKeys {y : System} (h : y.Inv) (k : Vector Bool 16) :
    (System.mk .executing (y.core.setKeys k)).Inv where
  core_inv := inv_congr h.core_inv rfl rfl rfl rfl rfl
  stack_pointer_zero := h.stack_pointer_zero
  stack_zero := h.stack_zero
  delay_timer_zero := h.delay_timer_zero
  sound_timer_zero := h.sound_timer_zero
  running_in_boot hne := absurd rfl hne

/-- Every event keeps the invariant of the system. -/
theorem inv_of_apply {font : FontParam} {e : Event} {y z : System} (h : y.Inv) (hz : y.apply font e = some z) :
    z.Inv := by
  obtain ⟨rfl, rfl⟩ | ⟨rfl, hphase, rfl⟩ | ⟨hphase, src, off, rfl, hload⟩ | ⟨rfl, -, hstep⟩ | ⟨rfl, -, rfl⟩ |
    ⟨k, rfl, -, rfl⟩ := apply_cases hz
  · exact inv_initial
  · have hboot : y.phase ≠ .executing := by rw [hphase]; exact nofun
    exact inv_setMem h hboot (wf_initializeFont font h.core_inv.memory_canonical) .fontReady
  · exact inv_of_loadEvent h hphase hload
  · obtain ⟨c, hs, rfl⟩ := stepEvent_some hstep
    exact inv_of_step h hs
  · exact inv_tick h
  · exact inv_setKeys h k

/-- The invariant holds of every reachable system. -/
theorem inv_of_reachable {font : FontParam} {y : System} (h : System.Reachable font y) : y.Inv := by
  induction h with
  | initial => exact inv_initial
  | event e _ he ih => exact inv_of_apply ih he

/-! ### Events after boot -/

/-- After boot the events but the reset are the step, the tick and the key update. -/
theorem apply_executing_cases {font : FontParam} {e : Event} {y z : System} (hphase : y.phase = .executing)
    (he : e ≠ .reset) (h : y.apply font e = some z) :
    (e = .step ∧ ∃ c, step y.core = .next c ∧ z = ⟨.executing, c⟩) ∨
    (e = .tick ∧ z = ⟨.executing, y.core.tick⟩) ∨
    (∃ k, e = .setKeys k ∧ z = ⟨.executing, y.core.setKeys k⟩) := by
  obtain ⟨rfl, -⟩ | ⟨-, hp, -⟩ | ⟨hp, -⟩ | ⟨rfl, -, hstep⟩ | ⟨rfl, -, rfl⟩ | ⟨k, rfl, -, rfl⟩ := apply_cases h
  · exact absurd rfl he
  · cases hphase.symm.trans hp
  · cases hphase.symm.trans hp
  · exact .inl ⟨rfl, stepEvent_some hstep⟩
  · exact .inr (.inl ⟨rfl, rfl⟩)
  · exact .inr (.inr ⟨k, rfl, rfl⟩)

/-- R175: a tick is enabled after boot, running or halted. -/
theorem apply_tick (font : FontParam) {y : System} (hphase : y.phase = .executing) :
    y.apply font .tick = some ⟨.executing, y.core.tick⟩ := by
  simp only [System.apply, hphase]

/-- R175: a key update is enabled after boot, running or halted. -/
theorem apply_setKeys (font : FontParam) {y : System} (hphase : y.phase = .executing) (k : Vector Bool 16) :
    y.apply font (.setKeys k) = some ⟨.executing, y.core.setKeys k⟩ := by
  simp only [System.apply, hphase]

/-- R157: a halted core has no step event. -/
theorem apply_step_of_halted (font : FontParam) {y : System} {f : CoreFault} (hphase : y.phase = .executing)
    (hhalt : y.core.HALT = .halted f) : y.apply font .step = none := by
  simp only [System.apply, hphase, System.stepEvent, step_of_halted hhalt]

/-- A schedule runs when its first event is enabled and the rest runs after it. -/
theorem run_cons {font : FontParam} {e : Event} {es : List Event} {y z : System} :
    System.run font (e :: es) y = some z ↔ ∃ x, y.apply font e = some x ∧ System.run font es x = some z := by
  rw [System.run]
  cases y.apply font e with
  | none => exact ⟨nofun, nofun⟩
  | some x => exact ⟨fun h => ⟨x, rfl, h⟩, fun ⟨_, hx, h⟩ => Option.some.inj hx ▸ h⟩

/-- What every event of a schedule keeps, the schedule keeps. -/
theorem run_keeps {font : FontParam} {P : System → Prop} {es : List Event} {y z : System}
    (hkeep : ∀ e ∈ es, ∀ u v, P u → u.apply font e = some v → P v) (hy : P y)
    (hrun : System.run font es y = some z) : P z := by
  induction es generalizing y with
  | nil =>
    cases hrun
    exact hy
  | cons e es ih =>
    obtain ⟨x, hx, hrest⟩ := run_cons.mp hrun
    have hPx : P x := hkeep e List.mem_cons_self y x hy hx
    exact ih (fun e' he' => hkeep e' (List.mem_cons_of_mem e he')) hPx hrest

/-! ### What lasts until a reset -/

/-- Past boot, with the memory `m`. -/
def HoldsMemory (m : Memory) (y : System) : Prop := y.phase = .executing ∧ y.core.MEM = m

/-- R66: no event but the reset writes memory after boot. -/
theorem holdsMemory_of_apply {font : FontParam} {m : Memory} {e : Event} {y z : System} (he : e ≠ .reset)
    (h : y.HoldsMemory m) (hz : y.apply font e = some z) : z.HoldsMemory m := by
  obtain ⟨hphase, hmem⟩ := h
  obtain ⟨-, c, hs, rfl⟩ | ⟨-, rfl⟩ | ⟨k, -, rfl⟩ := apply_executing_cases hphase he hz
  · obtain ⟨hstep, -⟩ := sameUnwritten_of_step hs
    exact ⟨rfl, hstep.trans hmem⟩
  · exact ⟨rfl, hmem⟩
  · exact ⟨rfl, hmem⟩

/-- Past boot, with every field of the core `c` but the timers and the key latch. -/
def HoldsCore (c : State) (y : System) : Prop :=
  y.phase = .executing ∧ c.SameInputs y.core ∧ y.core.STACK = c.STACK ∧ y.core.SP = c.SP

/-- A core that holds `c` is `c` with timers and keys of its own. -/
theorem HoldsCore.core_eq {c : State} {y : System} (h : y.HoldsCore c) :
    y.core = { c with DT := y.core.DT, ST := y.core.ST, KEY := y.core.KEY } := by
  obtain ⟨-, hin, hstack, hsp⟩ := h
  have hm : y.core.MEM = c.MEM := hin.1
  exact eq_of_sameInputs_of_sameUnwritten hin ⟨hm, hstack, hsp, rfl, rfl, rfl⟩

theorem HoldsCore.halt_eq {c : State} {y : System} (h : y.HoldsCore c) : y.core.HALT = c.HALT := by
  obtain ⟨-, ⟨-, -, -, -, -, hhalt⟩, -⟩ := h
  exact hhalt

/-- R157: from a halted core no event but the reset changes more than the timers and the key latch. -/
theorem holdsCore_of_apply {font : FontParam} {c : State} {f : CoreFault} {e : Event} {y z : System}
    (hc : c.HALT = .halted f) (he : e ≠ .reset) (h : y.HoldsCore c) (hz : y.apply font e = some z) :
    z.HoldsCore c := by
  have hhalt : y.core.HALT = .halted f := h.halt_eq.trans hc
  obtain ⟨hphase, hsame⟩ := h
  obtain ⟨-, d, hs, -⟩ | ⟨-, rfl⟩ | ⟨k, -, rfl⟩ := apply_executing_cases hphase he hz
  · cases (step_of_halted hhalt).symm.trans hs
  · exact ⟨rfl, hsame⟩
  · exact ⟨rfl, hsame⟩

/-! ### The timers over a schedule -/

/-- R170, R171: an event after boot takes each timer down by one when it is a tick and leaves it otherwise. -/
theorem timers_of_apply {font : FontParam} {e : Event} {y z : System} (hphase : y.phase = .executing)
    (he : e ≠ .reset) (hz : y.apply font e = some z) :
    z.phase = .executing ∧ z.core.DT.toNat = y.core.DT.toNat - [e].count .tick ∧
      z.core.ST.toNat = y.core.ST.toNat - [e].count .tick := by
  obtain ⟨rfl, c, hs, rfl⟩ | ⟨rfl, rfl⟩ | ⟨k, rfl, rfl⟩ := apply_executing_cases hphase he hz
  · obtain ⟨-, -, -, hdt, hst, -⟩ := sameUnwritten_of_step hs
    exact ⟨rfl, congrArg BitVec.toNat hdt, congrArg BitVec.toNat hst⟩
  · exact ⟨rfl, countDown_toNat y.core.DT, countDown_toNat y.core.ST⟩
  · exact ⟨rfl, rfl, rfl⟩

/-- R171: a schedule without a reset takes each timer down by its ticks, stopping at 0. -/
theorem timers_of_run {font : FontParam} {es : List Event} {y z : System} (hphase : y.phase = .executing)
    (hes : ∀ e ∈ es, e ≠ .reset) (hrun : System.run font es y = some z) :
    z.core.DT.toNat = y.core.DT.toNat - es.count .tick ∧ z.core.ST.toNat = y.core.ST.toNat - es.count .tick := by
  induction es generalizing y with
  | nil =>
    cases hrun
    exact ⟨rfl, rfl⟩
  | cons e es ih =>
    obtain ⟨x, hx, hrest⟩ := run_cons.mp hrun
    obtain ⟨hxphase, hdt, hst⟩ := timers_of_apply hphase (hes e List.mem_cons_self) hx
    obtain ⟨ihdt, ihst⟩ := ih hxphase (fun e' he' => hes e' (List.mem_cons_of_mem e he')) hrest
    have hcount : (e :: es).count .tick = [e].count .tick + es.count .tick := List.count_append (l₁ := [e])
    exact ⟨by omega, by omega⟩

end System

/-- R171: `n` ticks take the sound timer down by `n`, stopping at 0. -/
theorem ticks_ST_toNat (n : Nat) (s : State) : (State.ticks n s).ST.toNat = s.ST.toNat - n := by
  induction n generalizing s with
  | zero => rfl
  | succ n ih =>
    have htick : s.tick.ST.toNat = s.ST.toNat - 1 := countDown_toNat s.ST
    rw [State.ticks, ih, htick]
    omega

/-! ### The pixel query -/

/-- R178: a query inside the grid answers the cell. -/
theorem isPixelSet_inside {x y : Nat} (hx : x < 64) (hy : y < 32) (s : State) :
    s.isPixelSet x y = .ok (s.DISP.get ⟨x, hx⟩ ⟨y, hy⟩) :=
  dif_pos ⟨hx, hy⟩

/-- R178: a query outside the grid fails with the pair. -/
theorem isPixelSet_outside {x y : Nat} (h : 64 ≤ x ∨ 32 ≤ y) (s : State) :
    s.isPixelSet x y = .error (.outOfBounds x y) :=
  dif_neg (by simp only [dispW, dispH]; omega)

/-- The host has no query outside the grid, in any phase. -/
theorem ask_isPixelSet_outside {a b : Nat} (h : 64 ≤ a ∨ 32 ≤ b) (y : System) : y.ask (.isPixelSet a b) = none := by
  obtain ⟨p, c⟩ := y
  cases p with
  | created => rfl
  | fontReady => rfl
  | executing =>
    simp only [System.ask, isPixelSet_outside h]
    rfl
  | dead e => rfl

end Sys2Proof.Machine

namespace Sys2Proof

open Sys2Proof.Machine

/-! ### The obligations -/

/-- Settles O53, by the event. -/
theorem eventKeepsSystemInvariant : Obligations.EventKeepsSystemInvariant := fun _ _ _ _ => System.inv_of_apply

/-- Settles O54, clause by clause. -/
theorem creationMeetsSystemInvariant : Obligations.CreationMeetsSystemInvariant := System.inv_initial

/-- Settles O50, from the invariant of every reachable system. -/
theorem reachableStatesMeetInvariants : Obligations.ReachableStatesMeetInvariants := by
  intro font y h
  have hinv : y.Inv := System.inv_of_reachable h
  exact ⟨hinv.core_inv, hinv.stack_pointer_zero, hinv.stack_zero, hinv.delay_timer_zero, hinv.sound_timer_zero,
    hinv.running_in_boot⟩

/-- Settles O51: no event of the schedule writes memory. -/
theorem memoryConstantAfterBoot : Obligations.MemoryConstantAfterBoot := by
  intro font es y z hphase hreset hrun
  exact System.run_keeps (P := System.HoldsMemory y.core.MEM)
    (fun e he u v => System.holdsMemory_of_apply (ne_of_mem_of_not_mem he hreset)) ⟨hphase, rfl⟩ hrun

/-- Settles O52: the schedule keeps what the halted core holds, and the latch among it decides what is enabled. -/
theorem haltIsStickyUntilReset : Obligations.HaltIsStickyUntilReset := by
  intro font es y z f hphase hhalt hreset hrun
  have hz : z.HoldsCore y.core := System.run_keeps (P := System.HoldsCore y.core)
    (fun e he u v => System.holdsCore_of_apply hhalt (ne_of_mem_of_not_mem he hreset))
    ⟨hphase, ⟨rfl, rfl, rfl, rfl, rfl, rfl⟩, rfl, rfl⟩ hrun
  have hzphase : z.phase = .executing := hz.1
  have hzhalt : z.core.HALT = .halted f := hz.halt_eq.trans hhalt
  refine ⟨hz.core_eq, System.apply_step_of_halted font hzphase hzhalt, System.apply_tick font hzphase,
    System.apply_setKeys font hzphase, ?_⟩
  simp only [System.ask, hzphase, State.faultQuery, hzhalt]

/-- Settles O40: each timer counts down on its own. -/
theorem tickDecrementsTowardZero : Obligations.TickDecrementsTowardZero := by
  refine ⟨fun s => ⟨countDown s.DT, countDown s.ST, rfl, ?_⟩, fun font _ => System.apply_tick font⟩
  rw [countDown_toNat, countDown_toNat]
  omega

/-- Settles O41, by induction on the schedule. -/
theorem timersHoldClosedForm : Obligations.TimersHoldClosedForm := by
  intro font es y z hphase hes hrun
  refine System.timers_of_run hphase (fun e he => ?_) hrun
  obtain rfl | rfl | ⟨k, rfl⟩ := hes e he
  · exact nofun
  · exact nofun
  · exact nofun

/-- Settles O42, from the sound timer after `n` ticks. -/
theorem soundActiveForExactlyItsTicks : Obligations.SoundActiveForExactlyItsTicks := by
  intro s n
  rw [State.isSoundActive, decide_eq_true_iff, ticks_ST_toNat]
  omega

/-- Settles O44, inside and outside the grid. -/
theorem pixelQueryAnswersCell : Obligations.PixelQueryAnswersCell :=
  ⟨fun s c r => isPixelSet_inside c.isLt r.isLt s, fun s _ _ h => isPixelSet_outside h s,
    fun y _ _ h => ask_isPixelSet_outside h y⟩

end Sys2Proof
end

-- ==== Proofs: the display operations (43_display.md) ====
section

namespace Sys2Proof.Machine

/-! ### The check and the reads of a sprite -/

/-- R62: a checked byte read succeeds exactly inside memory. -/
theorem memRead1_ok_iff (s : State) (a : Nat) : (∃ b, s.memRead1 a = .ok b) ↔ a ≤ 0xFFF := by
  obtain ⟨hgt, h⟩ | ⟨hle, h⟩ := memRead1_cases s a
  · rw [h]
    exact ⟨nofun, fun hle => absurd hgt (Nat.not_lt.mpr hle)⟩
  · exact ⟨fun _ => hle, fun _ => ⟨_, h⟩⟩

/-- R62: a checked byte read fails exactly above memory, with its own address. -/
theorem memRead1_error_iff (s : State) (a b : Nat) : s.memRead1 a = .error b ↔ 0xFFF < a ∧ b = a := by
  obtain ⟨hgt, h⟩ | ⟨hle, h⟩ := memRead1_cases s a
  · rw [h, Except.error.injEq]
    exact ⟨fun hb => ⟨hgt, hb.symm⟩, fun hb => hb.2.symm⟩
  · rw [h]
    exact ⟨nofun, fun hb => absurd hb.1 (Nat.not_lt.mpr hle)⟩

/-- R138: the check finds nothing exactly when every row's address is inside memory. -/
theorem spriteFault_eq_none_iff (s : State) (n : Rows) :
    s.spriteFault n = none ↔ ∀ row, row < n.val → s.spriteAddr row ≤ 0xFFF := by
  simp only [State.spriteAddr]
  obtain ⟨h, hin⟩ | ⟨h, hn, hpast⟩ := spriteFault_cases s n
  · exact ⟨fun _ row hrow => by omega, fun _ => h⟩
  · rw [h]
    refine ⟨nofun, fun hrows => ?_⟩
    have := hrows (n.val - 1) (by omega)
    omega

/-- R138: the check finds the address of the first row outside memory. -/
theorem spriteFault_eq_some_iff (s : State) (n : Rows) (a : Nat) :
    s.spriteFault n = some a ↔ ∃ row, row < n.val ∧ (0xFFF < s.spriteAddr row ∧ a = s.spriteAddr row) ∧
      ∀ row', row' < row → s.spriteAddr row' ≤ 0xFFF := by
  simp only [State.spriteAddr]
  obtain ⟨h, hin⟩ | ⟨h, hn, hpast⟩ := spriteFault_cases s n
  · rw [h]
    refine ⟨nofun, ?_⟩
    rintro ⟨row, hrow, ⟨hgt, -⟩, -⟩
    omega
  · rw [h, Option.some.injEq]
    constructor
    · rintro rfl
      exact ⟨max s.I.toNat 0x1000 - s.I.toNat, by omega, by omega, fun row' hrow' => by omega⟩
    · rintro ⟨row, -, ⟨hgt, rfl⟩, hbefore⟩
      cases row with
      | zero => omega
      | succ row =>
        have := hbefore row (Nat.lt_succ_self row)
        omega

/-! ### The cells of a draw -/

/-- The cells the model's loops cover are those of R136. -/
theorem drawCovers_iff (s : State) (x y : RegIx) (n : Rows) (c : Col) (r : Row) :
    s.DrawCovers x y n c r ↔ spriteCovers s (s.startX x) (s.startY y) n.val c r := by
  constructor
  · rintro ⟨row, k, hrow, hc, hr, hbit⟩
    exact ⟨row.val, hrow, hr, k.val, k.isLt, hbit, Fin.ext hc.symm⟩
  · rintro ⟨row, hrow, hr, k, hk, hbit, hc⟩
    exact ⟨⟨row, hrow.trans n.isLt⟩, ⟨k, hk⟩, hrow, (congrArg Fin.val hc).symm, hr, hbit⟩

/-- R134: a draw flips a covered cell. -/
theorem drawn_get_of_covers {s : State} {x y : RegIx} {n : Rows} {c : Col} {r : Row} (h : s.DrawCovers x y n c r) :
    (s.drawn x y n).disp.get c r = !s.DISP.get c r := by
  obtain ⟨hcells, -⟩ := blit_spec s (s.startX x) (s.startY y) n.val
  obtain ⟨hflip, -⟩ := hcells c r
  exact hflip ((drawCovers_iff s x y n c r).mp h)

/-- R134: a draw leaves every other cell. -/
theorem drawn_get_of_not_covers {s : State} {x y : RegIx} {n : Rows} {c : Col} {r : Row}
    (h : ¬ s.DrawCovers x y n c r) : (s.drawn x y n).disp.get c r = s.DISP.get c r := by
  obtain ⟨hcells, -⟩ := blit_spec s (s.startX x) (s.startY y) n.val
  obtain ⟨-, hkeep⟩ := hcells c r
  exact hkeep (mt (drawCovers_iff s x y n c r).mpr h)

/-- R137: there is a collision exactly when a covered cell was set. -/
theorem drawn_hit_iff (s : State) (x y : RegIx) (n : Rows) :
    (s.drawn x y n).hit = true ↔ ∃ c r, s.DrawCovers x y n c r ∧ s.DISP.get c r = true := by
  obtain ⟨-, hhit⟩ := blit_spec s (s.startX x) (s.startY y) n.val
  simp only [drawCovers_iff]
  exact hhit

/-- A draw of no rows leaves the display and has no collision (R139). -/
theorem drawn_zero (s : State) (x y : RegIx) : s.drawn x y 0 = ⟨s.DISP, false⟩ := rfl

/-- The cells of a draw depend on memory, `I` and the two coordinate registers alone. -/
theorem drawCovers_congr {s t : State} {x y : RegIx} (hm : t.MEM = s.MEM) (hI : t.I = s.I)
    (hx : t.getV x = s.getV x) (hy : t.getV y = s.getV y) (n : Rows) (c : Col) (r : Row) :
    t.DrawCovers x y n c r ↔ s.DrawCovers x y n c r := by
  simp only [State.DrawCovers, hm, hI, hx, hy]

/-- The same draw from the display it left puts back every cell, flipped twice or left twice. -/
theorem drawn_drawn_disp {s t : State} {x y : RegIx} {n : Rows} (ht : t.DISP = (s.drawn x y n).disp)
    (hcover : ∀ c r, t.DrawCovers x y n c r ↔ s.DrawCovers x y n c r) : (t.drawn x y n).disp = s.DISP := by
  refine Display.ext_get fun c r => ?_
  by_cases h : s.DrawCovers x y n c r
  · rw [drawn_get_of_covers ((hcover c r).mpr h), ht, drawn_get_of_covers h, Bool.not_not]
  · rw [drawn_get_of_not_covers (mt (hcover c r).mp h), ht, drawn_get_of_not_covers h]

end Sys2Proof.Machine

namespace Sys2Proof

open Sys2Proof.Machine

/-! ### The obligations -/

/-- Settles O26: the loops flip exactly the covered cells, and VF is their collision. -/
theorem drawXorsSpriteAndReportsCollision : Obligations.DrawXorsSpriteAndReportsCollision := by
  intro s x y n hin
  refine ⟨_, exec_drw_of_noFault (spriteFault_eq_none hin) x y,
    fun c r => ⟨drawn_get_of_covers, drawn_get_of_not_covers⟩, ?_, ?_, rfl⟩
  · intro hcollision
    simp only [(drawn_hit_iff s x y n).mpr hcollision, collisionFlag, if_true]
  · intro hnone
    have hhit : (s.drawn x y n).hit = false := Bool.eq_false_iff.mpr (mt (drawn_hit_iff s x y n).mp hnone)
    simp only [hhit, collisionFlag, Bool.false_eq_true, if_false]

/-- Settles O28: both sides compare the rows' addresses with the last of memory. -/
theorem spriteCheckIsFirstFailingRead : Obligations.SpriteCheckIsFirstFailingRead := by
  intro s n
  simp only [memRead1_ok_iff, memRead1_error_iff]
  exact ⟨spriteFault_eq_none_iff s n, spriteFault_eq_some_iff s n⟩

/-- Settles O31: the second draw covers the same cells, which the first has flipped. -/
theorem drawingTwiceErases : Obligations.DrawingTwiceErases := by
  intro s t u x y n hst hhalt hrun hx hy htu
  have hcheck : s.spriteFault n = none := noFault_of_exec_drw hst (hhalt.trans hrun)
  obtain ⟨hm, hI, htdisp, htflag⟩ := fields_of_exec_drw hcheck hst
  have hcheck' : t.spriteFault n = none := (spriteFault_congr hI n).trans hcheck
  obtain ⟨-, -, hudisp, huflag⟩ := fields_of_exec_drw hcheck' htu
  have hcover : ∀ c r, t.DrawCovers x y n c r ↔ s.DrawCovers x y n c r := drawCovers_congr hm hI hx hy n
  refine ⟨hudisp.trans (drawn_drawn_disp htdisp hcover), ?_⟩
  rintro hclear ⟨c, r, hcr⟩
  have hfirst : (s.drawn x y n).hit = false := by
    refine Bool.eq_false_iff.mpr (mt (drawn_hit_iff s x y n).mp ?_)
    rintro ⟨c', r', hcr', hset⟩
    cases (hclear c' r' hcr').symm.trans hset
  have hflipped : t.DISP.get c r = true := by
    rw [htdisp, drawn_get_of_covers hcr, hclear c r hcr, Bool.not_false]
  have hsecond : (t.drawn x y n).hit = true := (drawn_hit_iff t x y n).mpr ⟨c, r, (hcover c r).mpr hcr, hflipped⟩
  exact ⟨htflag.trans (congrArg collisionFlag hfirst), huflag.trans (congrArg collisionFlag hsecond)⟩

/-- Settles O25, from the meaning of `00E0` and the word that decodes to it. -/
theorem clearMakesEveryCellFalse : Obligations.ClearMakesEveryCellFalse := by
  refine ⟨fun s => ⟨_, exec_cls s, Display.get_clear, fun a b ha hb => ?_, rfl⟩, decode_eq_cls_iff⟩
  rw [isPixelSet_inside ha hb, Display.get_clear]

/-- Settles O27, from the check that fails. -/
theorem drawPastMemoryHalts : Obligations.DrawPastMemoryHalts := fun _ x y _ hn hI =>
  exec_drw_of_fault (spriteFault_eq_some hn hI) x y

/-- Settles O29: fifteen rows from 0xFF1 end at 0xFFF. -/
theorem drawBelowFF1NeverFaults : Obligations.DrawBelowFF1NeverFaults := fun _ x y _ hI =>
  ⟨_, exec_drw_of_noFault (spriteFault_eq_none (by omega)) x y, rfl, rfl⟩

/-- Settles O30: the check has no row to fail on, and the loops none to draw. -/
theorem drawOfNoRowsClearsFlagOnly : Obligations.DrawOfNoRowsClearsFlagOnly := by
  intro s x y
  rw [exec_drw_of_noFault (spriteFault_eq_none (.inl rfl)) x y, drawn_zero]
  rfl

end Sys2Proof
end

-- ==== Proofs: the assembler items (30_encoding.md section 5) ====
section

namespace Sys2Proof

/-! ### The bytes of a format, from operands as numbers -/

theorem wordBytes_formatNNN (op : BitVec 4) {nnn : Nat} (h : nnn ≤ 0xFFF) :
    wordBytes (formatNNN op (BitVec.ofNat 12 nnn)) =
      [BitVec.ofNat 8 (16 * op.toNat + nnn / 256), BitVec.ofNat 8 nnn] := by
  have hop := op.isLt
  apply wordBytes_eq
  all_goals
    rw [formatNNN_toNat, BitVec.toNat_ofNat]
    omega

theorem wordBytes_formatXNN (op : BitVec 4) {x nn : Nat} (h : x ≤ 15 ∧ nn ≤ 255) :
    wordBytes (formatXNN op (Fin.ofNat 16 x) (BitVec.ofNat 8 nn)) =
      [BitVec.ofNat 8 (16 * op.toNat + x), BitVec.ofNat 8 nn] := by
  have hop := op.isLt
  apply wordBytes_eq
  all_goals
    rw [formatXNN_toNat, BitVec.toNat_ofNat, Fin.val_ofNat]
    omega

theorem wordBytes_formatXYN (op : BitVec 4) {x y n : Nat} (h : x ≤ 15 ∧ y ≤ 15 ∧ n ≤ 15) :
    wordBytes (formatXYN op (Fin.ofNat 16 x) (Fin.ofNat 16 y) (Fin.ofNat 16 n)) =
      [BitVec.ofNat 8 (16 * op.toNat + x), BitVec.ofNat 8 (16 * y + n)] := by
  have hop := op.isLt
  apply wordBytes_eq
  all_goals
    rw [formatXYN_toNat, Fin.val_ofNat, Fin.val_ofNat, Fin.val_ofNat]
    omega

/-- R87: a literal word, high byte first. -/
theorem wordBytes_ofNat {h : Nat} (hle : h ≤ 0xFFFF) :
    wordBytes (BitVec.ofNat 16 h) = [BitVec.ofNat 8 (h / 256), BitVec.ofNat 8 h] := by
  apply wordBytes_eq
  all_goals
    rw [BitVec.toNat_ofNat]
    omega

/-! ### What an item assembles to -/

namespace AsmItem

/-- Log entry 8: an item out of its range stands for nothing. -/
theorem toInstr_of_not_wellFormed {a : AsmItem} (h : ¬ a.wellFormed = true) : a.toInstr = none :=
  if_neg h

/-- An item that stands for the instruction `i` in its range assembles to the bytes of `i`, which decode to `i`. -/
theorem assembles_of_instr {a : AsmItem} {range : Prop} {i : Instr} {bs : List Byte}
    (hrange : a.wellFormed = true ↔ range) (hi : a.wellFormed = true → a.toInstr = some i)
    (hbytes : a.bytes = a.toInstr.map encodeBytes) (hbs : range → encodeBytes i = bs) :
    a.Assembles range (some i) bs := by
  refine ⟨hrange, fun hin => ?_, fun hout => ?_⟩
  · have hsome : a.toInstr = some i := hi (hrange.mpr hin)
    refine ⟨hsome, by rw [hbytes, hsome, Option.map_some, hbs hin], ?_⟩
    rintro j ⟨⟩
    rw [← hbs hin, ← List.append_nil (encodeBytes i)]
    exact decodeBytes_encodeBytes i []
  · have hnone : a.toInstr = none := toInstr_of_not_wellFormed (mt hrange.mp hout)
    exact ⟨hnone, by rw [hbytes, hnone, Option.map_none]⟩

/-- A data directive stands for no instruction and places its bytes in its range alone. -/
theorem assembles_of_data {a : AsmItem} {range : Prop} {bs bs' : List Byte} (hrange : a.wellFormed = true ↔ range)
    (hnone : a.toInstr = none) (hbytes : a.bytes = if a.wellFormed then some bs' else none)
    (hbs : range → bs' = bs) : a.Assembles range none bs := by
  refine ⟨hrange, fun hin => ⟨hnone, ?_, nofun⟩, fun hout => ⟨hnone, ?_⟩⟩
  · rw [hbytes, if_pos (hrange.mpr hin), hbs hin]
  · rw [hbytes, if_neg (mt hrange.mp hout)]

/-- Two checks in a row hold when both bounds do. -/
theorem and_decide_iff (p q : Prop) [Decidable p] [Decidable q] : (decide p && decide q) = true ↔ p ∧ q := by
  rw [Bool.and_eq_true, decide_eq_true_iff, decide_eq_true_iff]

/-! ### The items of the table -/

theorem cls_assembles : AsmItem.cls.Assembles True (some .cls) [0x00, 0xE0] :=
  assembles_of_instr (iff_true_intro rfl) (fun _ => rfl) rfl fun _ => rfl

theorem jp_assembles (nnn : Nat) : (AsmItem.jp nnn).Assembles (nnn ≤ 0xFFF) (some (.jp (BitVec.ofNat 12 nnn)))
    [BitVec.ofNat 8 (0x10 + nnn / 256), BitVec.ofNat 8 nnn] :=
  assembles_of_instr decide_eq_true_iff (fun h => if_pos h) rfl (wordBytes_formatNNN 0x1)

theorem ldImm_assembles (x nn : Nat) : (AsmItem.ldImm x nn).Assembles (x ≤ 15 ∧ nn ≤ 255)
    (some (.ldImm (Fin.ofNat 16 x) (BitVec.ofNat 8 nn))) [BitVec.ofNat 8 (0x60 + x), BitVec.ofNat 8 nn] :=
  assembles_of_instr (and_decide_iff _ _) (fun h => if_pos h) rfl (wordBytes_formatXNN 0x6)

theorem addImm_assembles (x nn : Nat) : (AsmItem.addImm x nn).Assembles (x ≤ 15 ∧ nn ≤ 255)
    (some (.addImm (Fin.ofNat 16 x) (BitVec.ofNat 8 nn))) [BitVec.ofNat 8 (0x70 + x), BitVec.ofNat 8 nn] :=
  assembles_of_instr (and_decide_iff _ _) (fun h => if_pos h) rfl (wordBytes_formatXNN 0x7)

theorem ldI_assembles (nnn : Nat) : (AsmItem.ldI nnn).Assembles (nnn ≤ 0xFFF) (some (.ldI (BitVec.ofNat 12 nnn)))
    [BitVec.ofNat 8 (0xA0 + nnn / 256), BitVec.ofNat 8 nnn] :=
  assembles_of_instr decide_eq_true_iff (fun h => if_pos h) rfl (wordBytes_formatNNN 0xA)

theorem drw_wellFormed_iff (x y n : Nat) : (AsmItem.drw x y n).wellFormed = true ↔ x ≤ 15 ∧ y ≤ 15 ∧ n ≤ 15 := by
  rw [AsmItem.wellFormed, Bool.and_eq_true, and_decide_iff, decide_eq_true_iff, and_assoc]

theorem drw_assembles (x y n : Nat) : (AsmItem.drw x y n).Assembles (x ≤ 15 ∧ y ≤ 15 ∧ n ≤ 15)
    (some (.drw (Fin.ofNat 16 x) (Fin.ofNat 16 y) (Fin.ofNat 16 n)))
    [BitVec.ofNat 8 (0xD0 + x), BitVec.ofNat 8 (16 * y + n)] :=
  assembles_of_instr (drw_wellFormed_iff x y n) (fun h => if_pos h) rfl (wordBytes_formatXYN 0xD)

theorem dw_assembles (h : Nat) :
    (AsmItem.dw h).Assembles (h ≤ 0xFFFF) none [BitVec.ofNat 8 (h / 256), BitVec.ofNat 8 h] :=
  assembles_of_data decide_eq_true_iff (ite_self none) rfl wordBytes_ofNat

theorem db_assembles (h : Nat) : (AsmItem.db h).Assembles (h ≤ 0xFF) none [BitVec.ofNat 8 h] :=
  assembles_of_data decide_eq_true_iff (ite_self none) rfl fun _ => rfl

end AsmItem

/-- Settles O7, item by item. -/
theorem assembledItemsDecode : Obligations.AssembledItemsDecode :=
  ⟨AsmItem.cls_assembles, AsmItem.jp_assembles, AsmItem.ldImm_assembles, AsmItem.addImm_assembles,
    AsmItem.ldI_assembles, AsmItem.drw_assembles, AsmItem.dw_assembles, AsmItem.db_assembles⟩

end Sys2Proof
end
